-- ==== Sys2Proof/Word.lean ====
section
/-!
DEFINITION. The machine's only data word: a character is one byte, a token is a finite sequence of
characters (00_scope.md R7, 20_memory.md R29). There is no wider word anywhere in this hardware.
-/

namespace Sys2Proof

/-- A character: one byte, compared exactly and never decoded (20_memory.md R29). -/
abbrev Byte := BitVec 8

/-- A token, a line or a whole source text: characters in text order. -/
abbrev Text := List Byte

/-- The bytes of an ASCII string, to write texts readably in tests. -/
def bytesOf (s : String) : Text := s.toList.map fun c => BitVec.ofNat 8 c.toNat

end Sys2Proof
end

