-- ==== Sys2Proof/Config.lean ====
section
/-!
DEFINITION. The implementation parameters of 00_scope.md R6, each under a name of its own with the spec's
default, and the fault codes of 60_exceptions.md R120. IsHexImm and ParseInt are the functions isHexImm and
parseInt of Machine/TextOps.lean. The hardware is deterministic (70_reset_and_hazards.md R145), so no
parameter is a free value.
-/

namespace Sys2Proof

/-- A fault code with the index it records (60_exceptions.md R120). -/
inductive Cause where
  /-- `F_DUP_LABEL(i)`, raised by the Program Loader; `i` is the line of the second definition (R64). -/
  | dupLabel (i : Nat)
  /-- `F_LABEL_ONLY_LINE(i)`, raised by the Program Loader; `i` is the line (R65). -/
  | labelOnlyLine (i : Nat)
  /-- `F_SHORT_RECORD(i)`, raised by the fetch unit; `i` is the record that lacks the element (R124). -/
  | shortRecord (i : Nat)
  /-- `F_BAD_THRESHOLD(p)`, raised by the fetch unit; `p` is the branch (R123). -/
  | badThreshold (p : Nat)
  /-- `F_UNRESOLVED_LABEL(p)`, raised by the fetch unit; `p` is the jump or branch (R122). -/
  | unresolvedLabel (p : Nat)
  /-- `F_INVARIANT`, raised by the model's own checks, unreachable from reset (R126). -/
  | invariant
deriving DecidableEq, Repr

/-- The spec's numeric code of a fault (60_exceptions.md R120, decision D15). -/
def Cause.code : Cause → Nat
  | .dupLabel _ => 1
  | .labelOnlyLine _ => 2
  | .shortRecord _ => 3
  | .badThreshold _ => 4
  | .unresolvedLabel _ => 5
  | .invariant => 6

/-- The instruction index a fault records; `F_INVARIANT` records none (60_exceptions.md R120). -/
def Cause.index : Cause → Option Nat
  | .dupLabel i => some i
  | .labelOnlyLine i => some i
  | .shortRecord i => some i
  | .badThreshold p => some p
  | .unresolvedLabel p => some p
  | .invariant => none

/-- A width of a counter, a cursor or the cycle count (00_scope.md R6, decision D9). -/
inductive Width where
  /-- Mathematical integers or natural numbers. -/
  | unbounded
  /-- So many bits: two's complement for a counter, unsigned for a cursor or the cycle count. -/
  | bits (n : Nat)
deriving DecidableEq, Repr

namespace Config

/-- `STAGES`: exactly three pipeline stages. -/
def stages : Nat := 3

/-- `TOKEN_SEP`: the space, U+0020. -/
def tokenSep : Byte := 0x20#8

/-- `LABEL_TERM`: the colon, U+003A (decision D2). -/
def labelTerm : Byte := 0x3A#8

/-- `OPERAND_SEP`: the comma, U+002C (decision D3). -/
def operandSep : Byte := 0x2C#8

/-- `LINE_SEP`: LF, U+000A (decision D4). -/
def lineSep : Byte := 0x0A#8

/-- `NO_LABEL`: the distinguished value that is not a string (decision D5). -/
def noLabel : Option Text := none

/-- `MN_LOAD`: `lw`. -/
def mnLoad : Text := [0x6C#8, 0x77#8]

/-- `MN_STORE`: `sw`. -/
def mnStore : Text := [0x73#8, 0x77#8]

/-- `MN_JUMP`: `jal`. -/
def mnJump : Text := [0x6A#8, 0x61#8, 0x6C#8]

/-- `MN_BR1`: `bge`, the first counted-branch kind (decision D6). -/
def mnBr1 : Text := [0x62#8, 0x67#8, 0x65#8]

/-- `MN_BR2`: `ble`, the second counted-branch kind (decision D6). -/
def mnBr2 : Text := [0x62#8, 0x6C#8, 0x65#8]

/-- The substring `0x` whose presence makes a token a hexadecimal immediate (decision D7). -/
def hexMark : Text := [0x30#8, 0x78#8]

/-- `-`, the only sign `ParseInt` accepts (decision D8). -/
def minusSign : Byte := 0x2D#8

/-- The eol-char the encoder writes, U+000D. The machine never looks at its value (30_encoding.md R44);
DESIGN CHOICE, log entry 8. -/
def eolChar : Byte := 0x0D#8

/-- `CTR_WIDTH`: a branch counter and a threshold are unbounded integers (decision D9). -/
def ctrWidth : Width := .unbounded

/-- `IDX_WIDTH`: a cursor is a natural number. -/
def idxWidth : Width := .unbounded

/-- `CYC_WIDTH`: the cycle count is an unbounded natural (decision D9). -/
def cycWidth : Width := .unbounded

/-- `LOOP_TEST_FIRST`: the termination test is made before the first cycle too (decision D10). -/
def loopTestFirst : Bool := true

/-- `DUP_LABEL`: what a second definition of a label does (decision D11). -/
def dupLabel (i : Nat) : Cause := .dupLabel i

/-- `SHORT_RECORD`: what reading a missing record element does (decision D12). -/
def shortRecord (i : Nat) : Cause := .shortRecord i

end Config

end Sys2Proof
end

