-- ==== Sys2Proof/Syntax.lean ====
section
/-!
DEFINITION. Instructions as data. One constructor per row of spec/opcode_table.json. The hardware checks no
operand count and interprets no operand at load (30_encoding.md R45 to R48, R51), so every constructor
carries the label and an operand list of any length; the generic row carries its mnemonic too.
-/

namespace Sys2Proof

/-- An instruction record (30_encoding.md R39): index 0 is `label` (`none` is the sentinel `NO_LABEL`),
index 1 is `mnemonic`, index `k + 2` is `operands[k]`. Every record the loader makes has these first two
elements (40_program_loader.md R68), so a record is a structure with them and not a bare sequence. -/
structure Record where
  label : Option Text
  mnemonic : Text
  operands : List Text
deriving DecidableEq, Repr

/-- The six classes of 30_encoding.md R42. -/
inductive Class where
  | generic
  | load
  | store
  | jump
  | br1
  | br2
deriving DecidableEq, Repr

/-- The instruction set: the six rows of the opcode table (30_encoding.md R51). -/
inductive Instr where
  /-- Row `<generic>`: any mnemonic other than the five below (45_instr_generic.md R108). -/
  | generic (label : Option Text) (mnemonic : Text) (operands : List Text)
  /-- Row `lw` (46_instr_load_store.md R110). -/
  | lw (label : Option Text) (operands : List Text)
  /-- Row `sw` (46_instr_load_store.md R111). -/
  | sw (label : Option Text) (operands : List Text)
  /-- Row `jal` (47_instr_jal.md R113). -/
  | jal (label : Option Text) (operands : List Text)
  /-- Row `bge` (48_instr_counted_branches.md R115). -/
  | bge (label : Option Text) (operands : List Text)
  /-- Row `ble` (48_instr_counted_branches.md R116). -/
  | ble (label : Option Text) (operands : List Text)
deriving DecidableEq, Repr

end Sys2Proof
end

