-- ==== Sys2Proof/Machine/TextOps.lean ====
section
/-!
DEFINITION. The operations on texts that the loader, the fetch unit and the execute unit share: the notation
of 00_scope.md R7, cutting at a separator (40_program_loader.md R58, R59), `IsHexImm` and `ParseInt`
(30_encoding.md R49, R50), and the class of a mnemonic (30_encoding.md R42).
-/

namespace Sys2Proof

/-- `t` without its last character; `DropLast("") = ""` (00_scope.md R7, decision D19). -/
def dropLastByte (t : Text) : Text := t.dropLast

/-- `EndsWith(t, c)` (00_scope.md R7). -/
def endsWithByte (t : Text) (c : Byte) : Bool := t.getLast? == some c

/-- `Contains(t, u)` for strings (00_scope.md R7): `u` occurs in `t` at some offset. -/
def containsText (t u : Text) : Bool :=
  match t with
  | [] => u.isEmpty
  | b :: t' => u.isPrefixOf (b :: t') || containsText t' u

/-- Cutting at every occurrence of `c`: the first piece and the pieces after it, so that `k` separators
give `k + 1` pieces (40_program_loader.md R58, R59). -/
def cutAt (c : Byte) : Text → Text × List Text
  | [] => ([], [])
  | b :: t =>
    let r := cutAt c t
    if b = c then ([], r.1 :: r.2) else (b :: r.1, r.2)

/-- `f` applied to the last element of a list, if there is one. -/
def mapLast {α : Type} (f : α → α) : List α → List α
  | [] => []
  | [a] => [f a]
  | a :: b :: l => a :: mapLast f (b :: l)

/-- The lines of a source text: cut at every LF, a final empty piece dropped (30_encoding.md R37,
40_program_loader.md R58, decision D4). -/
def linesOf (t : Text) : List Text :=
  let r := cutAt Config.lineSep t
  let pieces := r.1 :: r.2
  if pieces.getLast? = some [] then pieces.dropLast else pieces

/-- `IsHexImm(t)`: the token contains `0x` (30_encoding.md R50, decision D7). -/
def isHexImm (t : Text) : Bool := containsText t Config.hexMark

/-- The value of a decimal digit character. -/
def digitValue (b : Byte) : Option Nat :=
  if 0x30 ≤ b.toNat ∧ b.toNat ≤ 0x39 then some (b.toNat - 0x30) else none

/-- Decimal digits read onto a value `acc` already read; `none` at the first other character. -/
def digitsFrom (acc : Nat) : Text → Option Nat
  | [] => some acc
  | b :: t =>
    match digitValue b with
    | none => none
    | some d => digitsFrom (10 * acc + d) t

/-- One or more decimal digits and nothing else. -/
def parseNat : Text → Option Nat
  | [] => none
  | b :: t => digitsFrom 0 (b :: t)

/-- `ParseInt(t)`: an optional `-`, then one or more decimal digits, nothing else (30_encoding.md R49,
decision D8); `none` where the spec faults. -/
def parseInt : Text → Option Int
  | [] => none
  | b :: t =>
    if b = Config.minusSign then (parseNat t).map fun n : Nat => -(n : Int)
    else (parseNat (b :: t)).map fun n : Nat => (n : Int)

/-- `Class(i)` from the mnemonic alone, by exact comparison with five strings (30_encoding.md R42). -/
def classOf (m : Text) : Class :=
  if m = Config.mnLoad then .load
  else if m = Config.mnStore then .store
  else if m = Config.mnJump then .jump
  else if m = Config.mnBr1 then .br1
  else if m = Config.mnBr2 then .br2
  else .generic

/-- A token equal to one of the two counted-branch mnemonics. -/
def isBranchName (m : Text) : Bool := m == Config.mnBr1 || m == Config.mnBr2

end Sys2Proof
end

