-- ==== Sys2Proof/WellFormed.lean ====
section
/-!
DEFINITION. Two checks on an instruction as data. `Instr.wellFormed` says that some line of text carries it
(30_encoding.md R38 to R42): the encoder is written for these, and decoding yields only these.
`Instr.normal` is what clauses 1, 2 and 5 to 8 of the spec's own term "well-formed source"
(30_encoding.md R52) ask of one line; the check of a whole text is `wellFormedText`
(Machine/SourceForm.lean).
-/

namespace Sys2Proof

/-- A token never contains a space or an LF (30_encoding.md R40). -/
def tokenOk (t : Text) : Bool := t.all fun b => b != Config.tokenSep && b != Config.lineSep

/-- A text without the label terminator. -/
def termFree (t : Text) : Bool := t.all fun b => b != Config.labelTerm

/-- A label is a token that stops before the first terminator (30_encoding.md R41). -/
def labelOk : Option Text → Bool
  | none => true
  | some l => tokenOk l && termFree l

/-- On a line without label the head token is the mnemonic and contains no terminator
(30_encoding.md R41, R42). -/
def headOk (label : Option Text) (m : Text) : Bool := label.isSome || termFree m

/-- Some line of text carries this instruction. -/
def Instr.wellFormed : Instr → Bool
  | .generic l m ops =>
    labelOk l && tokenOk m && headOk l m && (classOf m == .generic) && ops.all tokenOk
  | .lw l ops => labelOk l && ops.all tokenOk
  | .sw l ops => labelOk l && ops.all tokenOk
  | .jal l ops => labelOk l && ops.all tokenOk
  | .bge l ops => labelOk l && ops.all tokenOk
  | .ble l ops => labelOk l && ops.all tokenOk

/-- 30_encoding.md R52, clause 2: non-empty, none of space, `:`, `,`, CR, LF. -/
def plainText (t : Text) : Bool :=
  !t.isEmpty && t.all fun b =>
    b != Config.tokenSep && b != Config.labelTerm && b != Config.operandSep && b != 0x0D#8 &&
      b != Config.lineSep

/-- A hexadecimal digit character. -/
def isHexDigit (b : Byte) : Bool :=
  (0x30 ≤ b.toNat && b.toNat ≤ 0x39) || (0x41 ≤ b.toNat && b.toNat ≤ 0x46) ||
    (0x61 ≤ b.toNat && b.toNat ≤ 0x66)

/-- 30_encoding.md R52, clause 8: no `0x`, or `0x` followed by one or more hexadecimal digits. -/
def hexOk (t : Text) : Bool :=
  !isHexImm t ||
    (Config.hexMark.isPrefixOf t && !(t.drop 2).isEmpty && (t.drop 2).all isHexDigit)

/-- 30_encoding.md R52, clauses 2, 7 and 8 for one operand. -/
def operandNormal (t : Text) : Bool := plainText t && !isBranchName t && hexOk t

/-- 30_encoding.md R52, clause 6: the threshold is an integer in `−2^31 .. 2^31−2`. -/
def thresholdNormal (t : Text) : Bool :=
  match parseInt t with
  | none => false
  | some v => decide (-2147483648 ≤ v) && decide (v ≤ 2147483646)

/-- The label of a line in normal form. -/
def labelNormal : Option Text → Bool
  | none => true
  | some l => plainText l

/-- At least one operand, each in normal form (30_encoding.md R52, clauses 1, 2, 7, 8). -/
def operandsNormal (ops : List Text) : Bool := !ops.isEmpty && ops.all operandNormal

/-- Exactly a threshold and a label (30_encoding.md R52, clause 6). -/
def branchOperandsNormal : List Text → Bool
  | [t, _] => thresholdNormal t
  | _ => false

/-- What 30_encoding.md R52 asks of one line, less what needs the whole text. -/
def Instr.normal : Instr → Bool
  | .generic l m ops =>
    labelNormal l && plainText m && (classOf m == .generic) && operandsNormal ops
  | .lw l ops => labelNormal l && operandsNormal ops
  | .sw l ops => labelNormal l && operandsNormal ops
  | .jal l ops => labelNormal l && operandsNormal ops && (ops.length == 1)
  | .bge l ops => labelNormal l && operandsNormal ops && branchOperandsNormal ops
  | .ble l ops => labelNormal l && operandsNormal ops && branchOperandsNormal ops

end Sys2Proof
end

