-- ==== Sys2Proof/Decode.lean ====
section
/-!
DEFINITION. From a line of text to an instruction and back. Decoding is the Program Loader's five steps for
one line (40_program_loader.md R59 to R63) followed by the class of the mnemonic (30_encoding.md R42). It is
total on any bytes and rejects one kind of line, by name (40_program_loader.md R65). The encoder below it is
written from the external line format (30_encoding.md R38).
-/

namespace Sys2Proof

/-- Why a line is no instruction. -/
inductive Reject where
  /-- A label and nothing after it (40_program_loader.md R65, decision D21). -/
  | labelOnlyLine
deriving DecidableEq, Repr

/-- The text contains the character. -/
def hasByte (c : Byte) (t : Text) : Bool := t.any fun b => b == c

/-- The part of a text before the first `c` in it. -/
def beforeByte (c : Byte) (t : Text) : Text := t.takeWhile fun b => b != c

/-- The label of a line (30_encoding.md R41): the head token up to its first terminator. -/
def lineLabel (line : Text) : Option Text :=
  let head := (cutAt Config.tokenSep line).1
  if hasByte Config.labelTerm head then some (beforeByte Config.labelTerm head) else Config.noLabel

/-- One trailing separator removed from an operand token that ends with it (30_encoding.md R43,
decision D18). -/
def stripSeparator (t : Text) : Text :=
  if endsWithByte t Config.operandSep then dropLastByte t else t

/-- Steps 1 to 4 for one line (40_program_loader.md R59 to R62): the record before the final strip. -/
def rawRecord (line : Text) : Except Reject Record :=
  let pieces := cutAt Config.tokenSep line
  match lineLabel line with
  | none => .ok ⟨Config.noLabel, pieces.1, pieces.2.map stripSeparator⟩
  | some l =>
    match pieces.2 with
    | [] => .error .labelOnlyLine
    | m :: rest => .ok ⟨some l, m, rest.map stripSeparator⟩

/-- The comparisons of steps 2 and 4 (40_program_loader.md R60, R62, decisions D23, D24): made on the record
before the final strip, they decide whether the line gets a branch counter. -/
def Record.registersCounter (raw : Record) : Bool :=
  isBranchName raw.mnemonic || raw.operands.any isBranchName

/-- Step 5 (40_program_loader.md R63): one character off the last token of the record. -/
def Record.finalStrip (raw : Record) : Record :=
  match raw.operands with
  | [] => { raw with mnemonic := dropLastByte raw.mnemonic }
  | _ :: _ => { raw with operands := mapLast dropLastByte raw.operands }

/-- The instruction a record stands for (30_encoding.md R42, R51): the mnemonic alone selects it. -/
def Record.instr (r : Record) : Instr :=
  match classOf r.mnemonic with
  | .load => .lw r.label r.operands
  | .store => .sw r.label r.operands
  | .jump => .jal r.label r.operands
  | .br1 => .bge r.label r.operands
  | .br2 => .ble r.label r.operands
  | .generic => .generic r.label r.mnemonic r.operands

/-- The record of an instruction (30_encoding.md R51, column "record"). -/
def Instr.record : Instr → Record
  | .generic l m ops => ⟨l, m, ops⟩
  | .lw l ops => ⟨l, Config.mnLoad, ops⟩
  | .sw l ops => ⟨l, Config.mnStore, ops⟩
  | .jal l ops => ⟨l, Config.mnJump, ops⟩
  | .bge l ops => ⟨l, Config.mnBr1, ops⟩
  | .ble l ops => ⟨l, Config.mnBr2, ops⟩

/-- The decoder: the instruction a line (without its LF) carries. -/
def decode (line : Text) : Except Reject Instr :=
  match rawRecord line with
  | .error e => .error e
  | .ok raw => .ok raw.finalStrip.instr

/-- The label part of a line, with its terminator and its space (30_encoding.md R38). -/
def encodeLabel : Option Text → Text
  | none => []
  | some l => l ++ [Config.labelTerm, Config.tokenSep]

/-- The operand part of a line: each operand after a space, each but the last before a separator
(30_encoding.md R38). -/
def encodeOperands : List Text → Text
  | [] => []
  | [t] => Config.tokenSep :: t
  | t :: u :: ops => Config.tokenSep :: (t ++ Config.operandSep :: encodeOperands (u :: ops))

/-- The line of a record with `eol` as its eol-char (30_encoding.md R38). -/
def Record.line (eol : Byte) (r : Record) : Text :=
  encodeLabel r.label ++ r.mnemonic ++ encodeOperands r.operands ++ [eol]

/-- The encoder: the line of text, without its LF, that carries an instruction. -/
def encode (i : Instr) : Text := i.record.line Config.eolChar

/-- The `n` lowest bytes of a number, lowest first. -/
def lowBytes : Nat → Nat → Text
  | 0, _ => []
  | n + 1, w => BitVec.ofNat 8 w :: lowBytes n (w / 256)

/-- The line that a bit-numbered word stands for (log entry 9): its bytes up to the first LF; where there is
no LF and the last byte is no CR, a zero byte (the first of the zero bits above `nbits`) stands in the place
of the eol-char. -/
def tableLine (nbits w : Nat) : Text :=
  let bytes := lowBytes ((nbits + 7) / 8) w
  let line := (cutAt Config.lineSep bytes).1
  if hasByte Config.lineSep bytes || endsWithByte bytes 0x0D#8 then line else line ++ [0#8]

/-- The instruction the decoder reads from a bit-numbered word. -/
def decodeTableWord (nbits w : Nat) : Option Instr :=
  match decode (tableLine nbits w) with
  | .ok i => some i
  | .error _ => none

end Sys2Proof
end

