-- ==== Sys2Proof/Machine/State.lean ====
section
/-!
DEFINITION. The state of RV32I-PIPE3 (10_state.md R10: "Nothing else is state"), its named updates, the reasons
a step can stop, and the state after reset.
-/

namespace Sys2Proof.Machine

/-- A stage status (10_state.md R16, R17): no third value exists. -/
inductive Status where
  | free
  | stalled
deriving DecidableEq, Repr

/-- The three pipeline stages (00_scope.md R6 `STAGES`). -/
inductive Stage where
  | fetch
  | execute
  | writeback
deriving DecidableEq, Repr

/-- The complete state (10_state.md R10). Indices, counters and the cycle count are unbounded
(decision D9, log entry 6). -/
structure State where
  /-- `Prog`: the instruction records in line order, immutable after load (R20). -/
  prog : List Record
  /-- `Sym`: label text to instruction index, in order of rising index, immutable after load (R21). -/
  sym : List (Text × Nat)
  /-- `Ctr`: instruction index to branch counter, in order of rising index (R19). -/
  ctr : List (Nat × Int)
  /-- `fetch_pos`, the program counter (R12). -/
  fetchPos : Nat
  /-- `exec_pos` (R13). -/
  execPos : Nat
  /-- `writeback_pos` (R14). -/
  writebackPos : Nat
  /-- `fetch_status` (R16). -/
  fetchStatus : Status
  /-- `execute_status` (R17). -/
  executeStatus : Status
  /-- `cycles`: completed cycles (R22). -/
  cycles : Nat
  /-- `fault`: `none`, or the one fault of the run (R23). -/
  fault : Option Cause
deriving DecidableEq, Repr

/-- Why the machine stops with a fault. -/
inductive Fault where
  /-- Raised by `step` alone, on a step event given to an engine whose fault register is set: "the engine
  takes no further cycle" (60_exceptions.md R128). Safe: no state is left (log entry 3). -/
  | halted (c : Cause)
deriving DecidableEq, Repr

/-- Why an instruction has no meaning. -/
inductive Refusal where
  /-- Raised by `exec` for an instruction whose meaning is not written; none is left. Safe. -/
  | notModelled (mnemonic : String)
deriving DecidableEq, Repr

/-- The state right after the reset of an unreadable source (70_reset_and_hazards.md R140, R141;
40_program_loader.md R57): three empty tables, every other field at the value the spec gives. The reset of a
source text is `State.resetWith` (Machine/Loader.lean, log entry 1). -/
def State.reset : State where
  prog := []
  sym := []
  ctr := []
  fetchPos := 0
  execPos := 0
  writebackPos := 0
  fetchStatus := .free
  executeStatus := .free
  cycles := 0
  fault := none

end Sys2Proof.Machine
end

