-- ==== Sys2Proof/Machine/Operands.lean ====
section
/-!
DEFINITION. Reading the elements of a record (30_encoding.md R39, R45 to R50): the needle and the tokens of the
data-hazard test, the threshold and target of a branch, the target of a jump, the latency test.
-/

namespace Sys2Proof.Machine

/-- The record as the token sequence of 00_scope.md R7; `none` is the sentinel at index 0. -/
def tokensOf (r : Record) : List (Option Text) := r.label :: some r.mnemonic :: r.operands.map some

/-- `IsCountedBranch` (30_encoding.md R42). -/
def isCountedBranch (r : Record) : Bool := classOf r.mnemonic == .br1 || classOf r.mnemonic == .br2

/-- `Contains(t, d)` for a token that may be the sentinel, which contains nothing (00_scope.md R7,
decision D5). -/
def tokenContains (t : Option Text) (d : Text) : Bool :=
  match t with
  | none => false
  | some u => containsText u d

/-- `Hazard(i)` for the needle `d` of a scanned instruction and the record about to be fetched: any token of
the record contains it, label and mnemonic included (41_fetch_unit.md R79). -/
def hazardWith (r : Record) (d : Text) : Bool := (tokensOf r).any fun t => tokenContains t d

/-- The needle of a scanned instruction, its record index 2 (41_fetch_unit.md R79, 60_exceptions.md R124);
`i` is the index the record stands at. -/
def needleOf (i : Nat) (r : Record) : Except Cause Text :=
  match r.operands[0]? with
  | none => .error (Config.shortRecord i)
  | some d => .ok d

/-- A natural number fits a width. -/
def holdsNat : Width → Nat → Bool
  | .unbounded, _ => true
  | .bits n, v => decide (v < 2 ^ n)

/-- A counter fits a width, in two's complement. -/
def holdsInt : Width → Int → Bool
  | .unbounded, _ => true
  | .bits n, v => decide (-(2 ^ (n - 1)) ≤ v) && decide (v ≤ 2 ^ (n - 1) - 1)

/-- A threshold fits a width: the counter of a `ble` reaches the threshold plus one, so the largest value of the
width is left out (00_scope.md R6 `CTR_WIDTH`, decision D9). -/
def holdsThreshold (w : Width) (v : Int) : Bool := holdsInt w v && holdsInt w (v + 1)

/-- A threshold token read as an integer (30_encoding.md R49); in a build of a bounded `CTR_WIDTH` a value
outside its range is refused like a token that is no integer (decision D9). -/
def readThreshold (t : Text) : Option Int :=
  match parseInt t with
  | none => none
  | some v => if holdsThreshold Config.ctrWidth v then some v else none

/-- `Threshold(p)`: record index 2 read as an integer, the length tested first (30_encoding.md R47,
60_exceptions.md R123, R124). -/
def thresholdOf (p : Nat) (r : Record) : Except Cause Int :=
  match r.operands[0]? with
  | none => .error (Config.shortRecord p)
  | some t =>
    match readThreshold t with
    | none => .error (.badThreshold p)
    | some v => .ok v

/-- The target label of a `jal`, record index 2 (30_encoding.md R48). -/
def jumpTargetOf (p : Nat) (r : Record) : Except Cause Text :=
  match r.operands[0]? with
  | none => .error (Config.shortRecord p)
  | some l => .ok l

/-- The target label of a counted branch, record index 3 (30_encoding.md R47). -/
def branchTargetOf (p : Nat) (r : Record) : Except Cause Text :=
  match r.operands[1]? with
  | none => .error (Config.shortRecord p)
  | some l => .ok l

/-- `HasHexImm`: the record has an operand and its last token is a hexadecimal immediate
(30_encoding.md R50). -/
def hasHexImm (r : Record) : Bool :=
  match r.operands.getLast? with
  | none => false
  | some t => isHexImm t

/-- `NeedsLatency` (42_execute_unit.md R92): a hexadecimal immediate, a load or a store. -/
def needsLatency (r : Record) : Bool :=
  hasHexImm r || classOf r.mnemonic == .load || classOf r.mnemonic == .store

end Sys2Proof.Machine
end

