-- ==== Sys2Proof/Machine/Flags.lean ====
section
/-!
DEFINITION. How the two stage statuses and the branch counters are computed: the release of a fetch stall
(43_writeback_unit.md R96), the control stalls (41_fetch_unit.md R82 to R84) and the counter rules of the two
counted-branch kinds (41_fetch_unit.md R85, 48_instr_counted_branches.md R117).
-/

namespace Sys2Proof.Machine

/-- The release condition of the write-back unit, on the state the previous cycle left
(43_writeback_unit.md R96). -/
def releases (s : State) : Bool :=
  s.writebackPos == s.execPos && (s.fetchStatus == .stalled || s.executeStatus == .stalled)

/-- `fetch_status` after the write-back unit (43_writeback_unit.md R96). -/
def fetchStatusAfterWriteBack (s : State) : Status := if releases s then .free else s.fetchStatus

/-- A `bge` with counter `c` and threshold `t` is taken (41_fetch_unit.md R85). -/
def br1Taken (c t : Int) : Bool := decide (t ≤ c)

/-- The counter of a resolved `bge`: reset when taken, else incremented (41_fetch_unit.md R85). -/
def br1Next (c t : Int) : Int := if br1Taken c t then 0 else c + 1

/-- A `ble` with counter `c` and threshold `t` is taken (41_fetch_unit.md R85). -/
def br2Taken (c t : Int) : Bool := decide (c ≤ t)

/-- The counter of a resolved `ble`: incremented when taken, else reset (41_fetch_unit.md R85). -/
def br2Next (c t : Int) : Int := if br2Taken c t then c + 1 else 0

/-- The control stall of a `jal`, from the mnemonic at `writeback_pos` (41_fetch_unit.md R82). -/
def jumpStalls (wm : Text) : Bool := wm != Config.mnJump

/-- The control stall of a `bge` (41_fetch_unit.md R83): about to be taken, and no `bge` at
`writeback_pos`. -/
def br1Stalls (c t : Int) (wm : Text) : Bool := br1Taken c t && wm != Config.mnBr1

/-- The control stall of a `ble` (41_fetch_unit.md R84). -/
def br2Stalls (c t : Int) (wm : Text) : Bool := br2Taken c t && wm != Config.mnBr2

end Sys2Proof.Machine
end

