-- ==== Sys2Proof/Machine/Ops.lean ====
section
/-!
DEFINITION. The shared operations of the machine: the three storage spaces (20_memory.md R25 to R28), fault entry
(60_exceptions.md R128), the three units (files 41 to 43) and the cycle around them (44_cycle_driver.md R99,
R101). Every instruction's meaning is one call of `cycle` with the fetch unit of its class.
-/

namespace Sys2Proof.Machine

/-! ### Storage spaces -/

/-- `count` (00_scope.md R7). -/
def State.count (s : State) : Nat := s.prog.length

/-- `last = count − 1`, meaningful when `count ≥ 1` (00_scope.md R7). -/
def State.last (s : State) : Nat := s.count - 1

/-- `Prog[i]`. An index outside the program cannot arise from the rules; the model's check raises
`F_INVARIANT` (20_memory.md R30, 60_exceptions.md R126, log entry 7). -/
def readProg (s : State) (i : Nat) : Except Cause Record :=
  match s.prog[i]? with
  | none => .error .invariant
  | some r => .ok r

/-- `Sym[l]` for the jump or branch at `p` (20_memory.md R27, 60_exceptions.md R122). A value outside the
program cannot arise from the rules and raises `F_INVARIANT` (60_exceptions.md R126). -/
def readSym (s : State) (p : Nat) (l : Text) : Except Cause Nat :=
  match s.sym.lookup l with
  | none => .error (.unresolvedLabel p)
  | some t => if t < s.count then .ok t else .error .invariant

/-- `Ctr[i]`. A missing entry cannot arise from the rules and raises `F_INVARIANT` (41_fetch_unit.md R87,
60_exceptions.md R126). -/
def readCtr (s : State) (i : Nat) : Except Cause Int :=
  match s.ctr.lookup i with
  | none => .error .invariant
  | some c => .ok c

/-- The counter table with the entry of `i` set to `v`; its keys are never changed (40_program_loader.md
R66). -/
def putCtr (i : Nat) (v : Int) (ctr : List (Nat × Int)) : List (Nat × Int) :=
  ctr.map fun e => if e.1 = i then (i, v) else e

/-! ### Named updates of the state -/

/-- `fetch_status <- STALLED`, the only value the fetch unit writes to it (41_fetch_unit.md R86). -/
def State.stallFetch (s : State) : State := { s with fetchStatus := .stalled }

/-- `fetch_pos <- t`. -/
def State.goto (s : State) (t : Nat) : State := { s with fetchPos := t }

/-- `Ctr[i] <- v`. -/
def State.setCtr (s : State) (i : Nat) (v : Int) : State := { s with ctr := putCtr i v s.ctr }

/-- `cycles <- cycles + 1`. -/
def State.countCycle (s : State) : State := { s with cycles := s.cycles + 1 }

/-- Fault entry, `raise F(info)`: the fault register is written and nothing else (60_exceptions.md R128).
There is no return from a fault (60_exceptions.md R129), so no operation undoes it but reset. -/
def State.raise (s : State) (c : Cause) : State := { s with fault := some c }

/-! ### Write-back unit -/

/-- The write-back unit (43_writeback_unit.md R96, R97): the release test with `writeback_pos` before the
copy, then the copy. -/
def writeBackUnit (s : State) : State :=
  { s with fetchStatus := fetchStatusAfterWriteBack s, writebackPos := s.execPos }

/-! ### Execute unit -/

/-- The execute unit (42_execute_unit.md R91 to R93). -/
def executeUnit (s : State) : Except Cause State :=
  match s.executeStatus with
  | .stalled => .ok { s with executeStatus := .free, execPos := s.fetchPos }
  | .free =>
    match readProg s s.execPos with
    | .error c => .error c
    | .ok r =>
      if needsLatency r then .ok { s with executeStatus := .stalled }
      else .ok { s with execPos := s.fetchPos }

/-! ### Fetch unit -/

/-- The data-hazard scan of `n` indices from `i` upward for the record `r` about to be fetched
(41_fetch_unit.md R78 to R80): it ends at the first hazard, and a short record met before one faults. -/
def scanFrom (s : State) (r : Record) (i : Nat) : Nat → Except Cause Bool
  | 0 => .ok false
  | n + 1 =>
    match readProg s i with
    | .error c => .error c
    | .ok ri =>
      if isCountedBranch ri then scanFrom s r (i + 1) n
      else
        match needleOf i ri with
        | .error c => .error c
        | .ok d => if hazardWith r d then .ok true else scanFrom s r (i + 1) n

/-- The scan of `writeback_pos ≤ i < fetch_pos`, empty when `fetch_pos ≤ writeback_pos`
(41_fetch_unit.md R78). -/
def dataHazard (s : State) (r : Record) : Except Cause Bool :=
  scanFrom s r s.writebackPos (s.fetchPos - s.writebackPos)

/-- `Mn(writeback_pos)`. -/
def writebackMnemonic (s : State) : Except Cause Text :=
  match readProg s s.writebackPos with
  | .error c => .error c
  | .ok r => .ok r.mnemonic

/-- The fetch unit with the record `r` at `fetch_pos` (41_fetch_unit.md R75): back-pressure, data-hazard scan,
the control-hazard check `control` of the class of `r`, and its next-fetch resolution `resolve`. -/
def fetchUnit (r : Record) (control : State → Except Cause Bool) (resolve : State → Except Cause State)
    (s : State) : Except Cause State :=
  match s.executeStatus with
  | .stalled => .ok s.stallFetch
  | .free =>
    match dataHazard s r with
    | .error c => .error c
    | .ok true => .ok s.stallFetch
    | .ok false =>
      match control s with
      | .error c => .error c
      | .ok stall =>
        let s' := if stall then s.stallFetch else s
        if s'.fetchStatus = .free ∧ s'.fetchPos ≠ s'.last then resolve s' else .ok s'

/-- "otherwise (ordinary instruction): no control hazard" (41_fetch_unit.md R81). -/
def noControl (_ : State) : Except Cause Bool := .ok false

/-- "otherwise: advance sequentially" (41_fetch_unit.md R85). -/
def advance (s : State) : Except Cause State := .ok (s.goto (s.fetchPos + 1))

/-- The control check of a `jal` (41_fetch_unit.md R82). -/
def jumpControl (s : State) : Except Cause Bool :=
  match writebackMnemonic s with
  | .error c => .error c
  | .ok wm => .ok (jumpStalls wm)

/-- The transfer of a `jal` (41_fetch_unit.md R85, R87): the target token, then `Sym`. -/
def jumpResolve (r : Record) (s : State) : Except Cause State :=
  match jumpTargetOf s.fetchPos r with
  | .error c => .error c
  | .ok l =>
    match readSym s s.fetchPos l with
    | .error c => .error c
    | .ok t => .ok (s.goto t)

/-- The control check of a counted branch, in the read order of 41_fetch_unit.md R87: threshold, counter,
mnemonic at `writeback_pos`. `stalls` is `br1Stalls` or `br2Stalls` (R83, R84). -/
def branchControl (stalls : Int → Int → Text → Bool) (r : Record) (s : State) : Except Cause Bool :=
  match thresholdOf s.fetchPos r with
  | .error c => .error c
  | .ok t =>
    match readCtr s s.fetchPos with
    | .error c => .error c
    | .ok v =>
      match writebackMnemonic s with
      | .error c => .error c
      | .ok wm => .ok (stalls v t wm)

/-- The resolution of a counted branch (41_fetch_unit.md R85): the outcome and the new counter are computed
from the counter before the update, and the target is read only when the branch is taken (R87). -/
def branchResolve (taken : Int → Int → Bool) (next : Int → Int → Int) (r : Record) (s : State) :
    Except Cause State :=
  match thresholdOf s.fetchPos r with
  | .error c => .error c
  | .ok t =>
    match readCtr s s.fetchPos with
    | .error c => .error c
    | .ok v =>
      if taken v t then
        match branchTargetOf s.fetchPos r with
        | .error c => .error c
        | .ok l =>
          match readSym s s.fetchPos l with
          | .error c => .error c
          | .ok dst => .ok ((s.setCtr s.fetchPos (next v t)).goto dst)
      else .ok ((s.setCtr s.fetchPos (next v t)).goto (s.fetchPos + 1))

/-! ### The cycle -/

/-- One cycle with `fetch` as its fetch unit (44_cycle_driver.md R99, R101): write-back, execute, fetch, then
`cycles + 1`. A raised fault abandons the cycle: the next state is the state at its start with the fault
register written (60_exceptions.md R128). -/
def cycle (fetch : State → Except Cause State) (s : State) : Host.Outcome State Fault Refusal :=
  match executeUnit (writeBackUnit s) with
  | .error c => .next (s.raise c)
  | .ok s2 =>
    match fetch s2 with
    | .error c => .next (s.raise c)
    | .ok s3 => .next s3.countCycle

/-- The instruction at `fetch_pos`, if the cursor is in range. -/
def fetchInstr (s : State) : Option Instr := (s.prog[s.fetchPos]?).map Record.instr

/-! ### Termination -/

/-- The termination predicate, a function of the state alone (44_cycle_driver.md R100). -/
def State.atEnd (s : State) : Bool := s.count == 0 || s.writebackPos == s.last

/-- The output `done`: never reported with a fault recorded (00_scope.md R8, 60_exceptions.md R128). -/
def State.done (s : State) : Bool := s.fault.isNone && s.atEnd

/-- The cycle driver's test before a cycle (44_cycle_driver.md R100). Without `LOOP_TEST_FIRST` the test
before the first cycle is only the one for the empty program (44_cycle_driver.md R102, decision D10). -/
def State.stopsBeforeCycle (s : State) : Bool :=
  s.atEnd && (Config.loopTestFirst || s.count == 0 || s.cycles != 0)

/-- The cursor of a stage (00_scope.md R9). -/
def State.cursor (s : State) : Stage → Nat
  | .fetch => s.fetchPos
  | .execute => s.execPos
  | .writeback => s.writebackPos

/-- The cursors of the `STAGES` pipeline stages, in the order of the units in a cycle. -/
def State.cursors (s : State) : Vector Nat Config.stages :=
  #v[s.cursor .writeback, s.cursor .execute, s.cursor .fetch]

/-- Every cursor, counter and count is representable in the widths of the build (00_scope.md R6 `IDX_WIDTH`,
`CTR_WIDTH`, `CYC_WIDTH`). -/
def State.fits (s : State) : Bool :=
  s.cursors.toList.all (holdsNat Config.idxWidth) && s.ctr.all (fun e => holdsInt Config.ctrWidth e.2) &&
    holdsNat Config.cycWidth s.cycles

/-- The result of a run: `cycles` once `done` holds, nothing before or after a fault
(44_cycle_driver.md R104). A build with bounded widths reports nothing that they do not hold: an overflow is
"the end of what it can report" (decision D9). -/
def State.result (s : State) : Option Nat := if s.done && s.fits then some s.cycles else none

/-- The canonical form of the three storage spaces: labels without repeats, symbol values and counter keys
strictly rising, and both inside the program. -/
def Memory.wf (s : State) : Bool :=
  decide ((s.sym.map (·.1)).Nodup) && decide ((s.sym.map (·.2)).Pairwise (· < ·)) &&
    s.sym.all (fun e => decide (e.2 < s.count)) && decide ((s.ctr.map (·.1)).Pairwise (· < ·)) &&
    s.ctr.all (fun e => decide (e.1 < s.count))

end Sys2Proof.Machine
end

