-- ==== Sys2Proof/Machine/Branch.lean ====
section
/-!
DEFINITION. The counted branches (48_instr_counted_branches.md R115 to R119). The two kinds are not mirror
images (R117).
-/

namespace Sys2Proof.Machine

/-- `bge T, label` (48_instr_counted_branches.md R115): taken on `≥` with the counter reset, else the counter
is incremented. -/
def execBge (label : Option Text) (ops : List Text) (s : State) : Host.Outcome State Fault Refusal :=
  cycle (fetchUnit ⟨label, Config.mnBr1, ops⟩ (branchControl br1Stalls ⟨label, Config.mnBr1, ops⟩)
    (branchResolve br1Taken br1Next ⟨label, Config.mnBr1, ops⟩)) s

/-- `ble T, label` (48_instr_counted_branches.md R116): taken on `≤` with the counter incremented, else the
counter is reset. -/
def execBle (label : Option Text) (ops : List Text) (s : State) : Host.Outcome State Fault Refusal :=
  cycle (fetchUnit ⟨label, Config.mnBr2, ops⟩ (branchControl br2Stalls ⟨label, Config.mnBr2, ops⟩)
    (branchResolve br2Taken br2Next ⟨label, Config.mnBr2, ops⟩)) s

end Sys2Proof.Machine
end

