-- ==== Sys2Proof/Machine/Generic.lean ====
section
/-!
DEFINITION. The generic instructions (45_instr_generic.md R108, R109). A meaning `exec…` is the cycle in which
the instruction stands at the fetch unit (log entry 2); what it does in the other stages is read from its
record by the shared operations: needle (`needleOf`), latency (`needsLatency`), release (`Mn(writeback_pos)`).
-/

namespace Sys2Proof.Machine

/-- `m op2, op3, …` (45_instr_generic.md R108): no control hazard, sequential advance. -/
def execGeneric (label : Option Text) (m : Text) (ops : List Text) (s : State) :
    Host.Outcome State Fault Refusal :=
  cycle (fetchUnit ⟨label, m, ops⟩ noControl advance) s

end Sys2Proof.Machine
end

