-- ==== Sys2Proof/Machine/Jump.lean ====
section
/-!
DEFINITION. The unconditional jump (47_instr_jal.md R113, R114).
-/

namespace Sys2Proof.Machine

/-- `jal label` (47_instr_jal.md R113): stalls unless a `jal` is at `writeback_pos`, then jumps to the symbol
value of record index 2. Nothing is linked. -/
def execJal (label : Option Text) (ops : List Text) (s : State) : Host.Outcome State Fault Refusal :=
  cycle (fetchUnit ⟨label, Config.mnJump, ops⟩ jumpControl (jumpResolve ⟨label, Config.mnJump, ops⟩)) s

end Sys2Proof.Machine
end

