-- ==== Sys2Proof/Machine/LoadStore.lean ====
section
/-!
DEFINITION. Load and store (46_instr_load_store.md R110, R111). At the fetch unit they behave as a generic
instruction; the latency cycle they cost is taken by the execute unit of the cycle in which they stand at
`exec_pos` (`executeUnit`, `needsLatency`, 42_execute_unit.md R92). They move no data.
-/

namespace Sys2Proof.Machine

/-- `lw op2, op3` (46_instr_load_store.md R110): no control hazard, sequential advance. -/
def execLw (label : Option Text) (ops : List Text) (s : State) : Host.Outcome State Fault Refusal :=
  cycle (fetchUnit ⟨label, Config.mnLoad, ops⟩ noControl advance) s

/-- `sw op2, op3` (46_instr_load_store.md R111): identical to `lw` in every unit. -/
def execSw (label : Option Text) (ops : List Text) (s : State) : Host.Outcome State Fault Refusal :=
  cycle (fetchUnit ⟨label, Config.mnStore, ops⟩ noControl advance) s

end Sys2Proof.Machine
end

