-- ==== Sys2Proof/Machine/Dispatch.lean ====
section
/-!
DEFINITION. exec: one arm per constructor of Instr, each one direct call of the instruction's meaning.
-/

namespace Sys2Proof.Machine

def exec (i : Instr) (s : State) : Host.Outcome State Fault Refusal :=
  match i with
  | .generic l m ops => Sys2Proof.Machine.execGeneric l m ops s
  | .lw l ops => Sys2Proof.Machine.execLw l ops s
  | .sw l ops => Sys2Proof.Machine.execSw l ops s
  | .jal l ops => Sys2Proof.Machine.execJal l ops s
  | .bge l ops => Sys2Proof.Machine.execBge l ops s
  | .ble l ops => Sys2Proof.Machine.execBle l ops s

end Sys2Proof.Machine
end

