-- ==== Sys2Proof/Machine/Loader.lean ====
section
/-!
DEFINITION. The Program Loader (40_program_loader.md): from a source to the three tables, or a loader fault; and
the reset of the machine with a source (70_reset_and_hazards.md R140).
-/

namespace Sys2Proof.Machine

/-- The input `source`, sampled once at reset (00_scope.md R8). -/
inductive Source where
  /-- "the source cannot be opened" -/
  | unreadable
  | text (bytes : Text)
deriving DecidableEq, Repr

/-- The three products of the loader (40_program_loader.md R57). -/
structure Tables where
  prog : List Record
  sym : List (Text × Nat)
  ctr : List (Nat × Int)
deriving DecidableEq, Repr

/-- Three empty tables. -/
def Tables.empty : Tables := ⟨[], [], []⟩

/-- The symbol entry of line `i` (40_program_loader.md R61, R64): a label that is already a key faults. -/
def addLabel (i : Nat) (label : Option Text) (sym : List (Text × Nat)) : Except Cause (List (Text × Nat)) :=
  match label with
  | none => .ok sym
  | some l => if (sym.lookup l).isSome then .error (Config.dupLabel i) else .ok (sym ++ [(l, i)])

/-- The counter entry of line `i` (40_program_loader.md R60, R62), from the record before the final strip. -/
def addCounter (i : Nat) (raw : Record) (ctr : List (Nat × Int)) : List (Nat × Int) :=
  if raw.registersCounter then ctr ++ [(i, 0)] else ctr

/-- One line added to the tables (40_program_loader.md R59 to R65): the label is entered before the missing
mnemonic is noticed, so `F_DUP_LABEL` comes before `F_LABEL_ONLY_LINE` (60_exceptions.md R125). -/
def loadLine (i : Nat) (line : Text) (t : Tables) : Except Cause Tables :=
  match addLabel i (lineLabel line) t.sym with
  | .error c => .error c
  | .ok sym =>
    match rawRecord line with
    | .error .labelOnlyLine => .error (.labelOnlyLine i)
    | .ok raw => .ok ⟨t.prog ++ [raw.finalStrip], sym, addCounter i raw t.ctr⟩

/-- The lines from number `i` on, in order (40_program_loader.md R58). -/
def loadLines (i : Nat) : List Text → Tables → Except Cause Tables
  | [], t => .ok t
  | line :: lines, t =>
    match loadLine i line t with
    | .error c => .error c
    | .ok t' => loadLines (i + 1) lines t'

/-- `Load(source)` (40_program_loader.md R57). -/
def load : Source → Except Cause Tables
  | .unreadable => .ok Tables.empty
  | .text bytes => loadLines 0 (linesOf bytes) Tables.empty

/-- `Reset(source)` (70_reset_and_hazards.md R140). On a loader fault no table is delivered and the fault is
recorded before any cycle (40_program_loader.md R67, 60_exceptions.md R125, log entry 5). -/
def State.resetWith (src : Source) : State :=
  match load src with
  | .error c => State.reset.raise c
  | .ok t => { State.reset with prog := t.prog, sym := t.sym, ctr := t.ctr }

/-- The record of a blank line, which pads a program in `placeLine`. -/
def blankRecord : Record := ⟨none, [], []⟩

/-- A program of at least `n` records, padded with blank lines. -/
def padProg (n : Nat) (prog : List Record) : List Record :=
  prog ++ List.replicate (n - prog.length) blankRecord

/-- The counter table with an entry of value 0 for `i`, in its place by rising index. -/
def insertCounter (i : Nat) : List (Nat × Int) → List (Nat × Int)
  | [] => [(i, 0)]
  | e :: l => if i < e.1 then (i, 0) :: e :: l else if i = e.1 then (i, 0) :: l else e :: insertCounter i l

/-- The symbol table with the entry `l ↦ i`, in its place by rising index. -/
def insertLabel (l : Text) (i : Nat) : List (Text × Nat) → List (Text × Nat)
  | [] => [(l, i)]
  | e :: t => if i < e.2 then (l, i) :: e :: t else e :: insertLabel l i t

/-- A length that puts every cursor before `last`. -/
def placedLength (s : State) : Nat := max s.fetchPos (max s.execPos s.writebackPos) + 2

/-- `Prog` with the record `r` at `fetch_pos`, padded so that no cursor is at or past `last`. -/
def placedProg (s : State) (r : Record) : List Record := (padProg (placedLength s) s.prog).set s.fetchPos r

/-- `Sym` with `label ↦ fetch_pos`, in place of any entry of that label or of that index. -/
def placedSym (s : State) (label : Option Text) : List (Text × Nat) :=
  match label with
  | none => s.sym.filter fun e => e.2 != s.fetchPos
  | some l => insertLabel l s.fetchPos (s.sym.filter fun e => e.2 != s.fetchPos && e.1 != l)

/-- `Ctr` with the counter that the line at `fetch_pos` registers, or with none for that index. -/
def placedCtr (s : State) (raw : Record) : List (Nat × Int) :=
  if raw.registersCounter then insertCounter s.fetchPos s.ctr else s.ctr.filter fun e => e.1 != s.fetchPos

/-- A line stored where the next cycle fetches, as the load of a program with that line at `fetch_pos` would
leave it, and with what a cycle needs to run at all (log entry 10): its record, its label, its counter, blank
lines after it, no fault recorded. A line the decoder rejects leaves the loader's fault. -/
def placeLine (s : State) (line : Text) : State :=
  match rawRecord line with
  | .error .labelOnlyLine => s.raise (.labelOnlyLine s.fetchPos)
  | .ok raw =>
    { s with
      prog := placedProg s raw.finalStrip
      sym := placedSym s raw.label
      ctr := placedCtr s raw
      fault := none }

end Sys2Proof.Machine
end

