-- ==== Sys2Proof/Machine/Step.lean ====
section
/-!
DEFINITION. One step event (00_scope.md R8, 44_cycle_driver.md R100, R104): a halted engine takes no cycle and
answers its fault, an engine at the end of its run takes no cycle and keeps its state, and a running engine
takes the cycle of the instruction at `fetch_pos`.
-/

namespace Sys2Proof.Machine

/-- One step event. -/
def step (s : State) : Host.Outcome State Fault Refusal :=
  match s.fault with
  | some c => .fault (.halted c)
  | none =>
    if s.stopsBeforeCycle then .next s
    else
      match fetchInstr s with
      | none => .next (s.raise .invariant)
      | some i => exec i s

/-- `s` with the line that a bit-numbered word stands for stored where the next step fetches. -/
def State.withFetchWord (s : State) (nbits w : Nat) : State := placeLine s (tableLine nbits w)

end Sys2Proof.Machine
end

