-- ==== Sys2Proof/Machine/Simultaneous.lean ====
section
/-!
DEFINITION. The cycle as one next-state function, all registers updated together from the values they held at
its start (44_cycle_driver.md R103). `step` does not use it: it is a second description of the cycle, written
from R103 alone, to be proved equal to the sequential one.
-/

namespace Sys2Proof.Machine

/-- A value that must be present, or the fault raised where it is read. -/
def need {α : Type} (c : Cause) : Option α → Except Cause α
  | none => .error c
  | some a => .ok a

/-- "exists i, w' ≤ i < f, not IsCountedBranch(i), Hazard(i) at f", read in ascending order
(44_cycle_driver.md R103, 41_fetch_unit.md R87). -/
def anyHazard (s : State) (r : Record) : List Nat → Except Cause Bool
  | [] => .ok false
  | i :: is => do
    let ri ← need .invariant s.prog[i]?
    if isCountedBranch ri then anyHazard s r is
    else do
      let d ← need (.shortRecord i) ri.operands[0]?
      if hazardWith r d then pure true else anyHazard s r is

/-- The threshold of the counted branch at `p` with operands `ops`. -/
def thresholdAt (p : Nat) (ops : List Text) : Except Cause Int := do
  let t ← need (.shortRecord p) ops[0]?
  need (.badThreshold p) (readThreshold t)

/-- `CtrlStall(f, w', Ctr)` for the instruction at `f` (41_fetch_unit.md R82 to R84 with
`writeback_pos = w'`). -/
def ctrlStall (i : Instr) (s : State) (w' : Nat) : Except Cause Bool :=
  match i with
  | .generic _ _ _ => pure false
  | .lw _ _ => pure false
  | .sw _ _ => pure false
  | .jal _ _ => do
    let rw ← need .invariant s.prog[w']?
    pure (rw.mnemonic != Config.mnJump)
  | .bge _ ops => do
    let t ← thresholdAt s.fetchPos ops
    let c ← need .invariant (s.ctr.lookup s.fetchPos)
    let rw ← need .invariant s.prog[w']?
    pure (decide (c ≥ t) && rw.mnemonic != Config.mnBr1)
  | .ble _ ops => do
    let t ← thresholdAt s.fetchPos ops
    let c ← need .invariant (s.ctr.lookup s.fetchPos)
    let rw ← need .invariant s.prog[w']?
    pure (decide (c ≤ t) && rw.mnemonic != Config.mnBr2)

/-- `Sym[l]` for the transfer at `p`, inside the program. -/
def symbolAt (s : State) (p : Nat) (l : Text) : Except Cause Nat := do
  let t ← need (.unresolvedLabel p) (s.sym.lookup l)
  if t < s.prog.length then pure t else .error .invariant

/-- `Next(f, Ctr)` for the instruction at `f` (41_fetch_unit.md R85): the next `fetch_pos` and the next
counter table. -/
def nextFetch (i : Instr) (s : State) : Except Cause (Nat × List (Nat × Int)) :=
  let p := s.fetchPos
  match i with
  | .generic _ _ _ => pure (p + 1, s.ctr)
  | .lw _ _ => pure (p + 1, s.ctr)
  | .sw _ _ => pure (p + 1, s.ctr)
  | .jal _ ops => do
    let l ← need (.shortRecord p) ops[0]?
    let t ← symbolAt s p l
    pure (t, s.ctr)
  | .bge _ ops => do
    let t ← thresholdAt p ops
    let c ← need .invariant (s.ctr.lookup p)
    if c ≥ t then do
      let l ← need (.shortRecord p) ops[1]?
      let dst ← symbolAt s p l
      pure (dst, putCtr p 0 s.ctr)
    else pure (p + 1, putCtr p (c + 1) s.ctr)
  | .ble _ ops => do
    let t ← thresholdAt p ops
    let c ← need .invariant (s.ctr.lookup p)
    if c ≤ t then do
      let l ← need (.shortRecord p) ops[1]?
      let dst ← symbolAt s p l
      pure (dst, putCtr p (c + 1) s.ctr)
    else pure (p + 1, putCtr p 0 s.ctr)

/-- `(es', e')` (44_cycle_driver.md R103). -/
def nextExecute (s : State) : Except Cause (Status × Nat) :=
  match s.executeStatus with
  | .stalled => pure (.free, s.fetchPos)
  | .free => do
    let re ← need .invariant s.prog[s.execPos]?
    pure (if needsLatency re then (.stalled, s.execPos) else (.free, s.fetchPos))

/-- The next state of a cycle with `i` at `fetch_pos`, or the fault it raises (44_cycle_driver.md R103). -/
def nextState (i : Instr) (s : State) : Except Cause State := do
  let f := s.fetchPos
  let w' := s.execPos
  let fs1 :=
    if s.writebackPos = s.execPos ∧ (s.fetchStatus = .stalled ∨ s.executeStatus = .stalled) then Status.free
    else s.fetchStatus
  let x ← nextExecute s
  let s' : State :=
    { s with
      execPos := x.2, writebackPos := w', fetchStatus := .stalled, executeStatus := x.1
      cycles := s.cycles + 1 }
  if x.1 = .stalled then pure s'
  else do
    let hazard ← anyHazard s i.record (List.range' w' (f - w'))
    if hazard then pure s'
    else do
      let c ← ctrlStall i s w'
      let fs' := if c then Status.stalled else fs1
      if fs' = .free ∧ f ≠ s.prog.length - 1 then do
        let n ← nextFetch i s
        pure { s' with fetchPos := n.1, ctr := n.2, fetchStatus := fs' }
      else pure { s' with fetchStatus := fs' }

end Sys2Proof.Machine
end

