-- ==== Sys2Proof/Machine/SourceForm.lean ====
section
/-!
DEFINITION. The spec's own term "well-formed source" (30_encoding.md R52), as a check of a whole text. A text
that fails it is not refused: the loader is total and every text runs by the rules
(93_implementation_defined.md U17).
-/

namespace Sys2Proof.Machine

/-- What 30_encoding.md R52 leaves to the eol-char of a line with these operands (log entry 14): it is none of the
characters that only separate or terminate (clause 2), and with it still attached the last operand is no
counted-branch name, so that decision D24 cannot change the counter table. -/
def eolNormal (ops : List Text) (eol : Byte) : Bool :=
  eol != Config.tokenSep && eol != Config.labelTerm && eol != Config.operandSep && eol != Config.lineSep &&
    match ops.getLast? with
    | none => true
    | some t => !isBranchName (t ++ [eol])

/-- One line of 30_encoding.md R52: exactly the external format of R38, with at least one operand, its last
character taken as the eol-char (clauses 1 to 3, and clauses 5 to 8 as far as one line shows them). -/
def lineNormal (line : Text) : Bool :=
  match line.getLast?, decode line with
  | some eol, .ok i => i.normal && eolNormal i.record.operands eol && i.record.line eol == line
  | _, _ => false

/-- The target label of a control transfer (30_encoding.md R47, R48). -/
def targetLabel : Instr → Option Text
  | .generic _ _ _ => none
  | .lw _ _ => none
  | .sw _ _ => none
  | .jal _ ops => ops[0]?
  | .bge _ ops => ops[1]?
  | .ble _ ops => ops[1]?

/-- The labels a text defines, in line order. -/
def definedLabels (lines : List Text) : List Text := lines.filterMap lineLabel

/-- The target of the line, if it has one, is among the labels (30_encoding.md R52, clauses 5 and 6). -/
def targetDefined (labels : List Text) (line : Text) : Bool :=
  match decode line with
  | .error _ => false
  | .ok i =>
    match targetLabel i with
    | none => true
    | some l => labels.contains l

/-- A well-formed source text (30_encoding.md R52). -/
def wellFormedText (bytes : Text) : Bool :=
  let lines := linesOf bytes
  lines.all lineNormal && decide ((definedLabels lines).Nodup) &&
    lines.all (targetDefined (definedLabels lines))

end Sys2Proof.Machine
end

