-- ==== Sys2Proof/Safety.lean ====
section
/-!
DEFINITION. The terms claims about the machine use: completed cycles, the conditions under which each unit stalls or
lets an instruction pass, reachable states, and the invariant that every step keeps.
-/

namespace Sys2Proof.Machine

/-! ### Cycles -/

/-- The cycle of `i` from `s` is completed and leaves `t`: no fault was raised in it, so it is counted
(60_exceptions.md R128). -/
def Completes (i : Instr) (s t : State) : Prop := exec i s = .next t ∧ t.cycles = s.cycles + 1

/-- The states a run from some source goes through. -/
inductive Reachable : State → Prop where
  | start (src : Source) : Reachable (State.resetWith src)
  | cycle (s t : State) : Reachable s → step s = .next t → Reachable t

/-! ### What the units do with a state -/

/-- The execute unit begins a latency cycle (42_execute_unit.md R92). -/
def ExecuteStalls (s : State) : Prop :=
  s.executeStatus = .free ∧ ∃ r, s.prog[s.execPos]? = some r ∧ needsLatency r = true

/-- The execute unit copies the fetch cursor (42_execute_unit.md R91, R93). -/
def ExecuteAdvances (s : State) : Prop :=
  s.executeStatus = .stalled ∨ ∃ r, s.prog[s.execPos]? = some r ∧ needsLatency r = false

/-- The fetch unit finds `fetch_status = FREE`: it was, or the write-back unit releases it
(43_writeback_unit.md R96). -/
abbrev FetchFreed (s : State) : Prop := s.fetchStatus = .free ∨ s.writebackPos = s.execPos

/-- Scanned index `i` is no hazard for the record `r` about to be fetched (41_fetch_unit.md R79). -/
def ScanPassesAt (s : State) (r : Record) (i : Nat) : Prop :=
  ∃ ri, s.prog[i]? = some ri ∧
    (isCountedBranch ri = true ∨ ∃ d, ri.operands[0]? = some d ∧ hazardWith r d = false)

/-- The fetch unit finds no data hazard for `r`. It scans from the new `writeback_pos`, which is the old
`exec_pos` (41_fetch_unit.md R74, R78). -/
def ScanPasses (s : State) (r : Record) : Prop :=
  ∀ i, s.execPos ≤ i → i < s.fetchPos → ScanPassesAt s r i

/-- The scan ends with a data hazard at index `i` (41_fetch_unit.md R80). -/
def ScanStallsAt (s : State) (r : Record) (i : Nat) : Prop :=
  s.execPos ≤ i ∧ i < s.fetchPos ∧ (∀ j, s.execPos ≤ j → j < i → ScanPassesAt s r j) ∧
    ∃ ri d, s.prog[i]? = some ri ∧ isCountedBranch ri = false ∧ ri.operands[0]? = some d ∧
      hazardWith r d = true

/-- The scan meets a record without index 2 at index `i` before any hazard (60_exceptions.md R124). -/
def ScanShortAt (s : State) (r : Record) (i : Nat) : Prop :=
  s.execPos ≤ i ∧ i < s.fetchPos ∧ (∀ j, s.execPos ≤ j → j < i → ScanPassesAt s r j) ∧
    ∃ ri, s.prog[i]? = some ri ∧ isCountedBranch ri = false ∧ ri.operands = []

/-- The fetch unit reaches its control-hazard check with `r` (41_fetch_unit.md R81). -/
def ReachesControl (s : State) (r : Record) : Prop := ExecuteAdvances s ∧ ScanPasses s r

/-- The mnemonic at the new `writeback_pos` is `m`. -/
def WritesBack (s : State) (m : Text) : Prop := ∃ r, s.prog[s.execPos]? = some r ∧ r.mnemonic = m

/-- The mnemonic at the new `writeback_pos` is another than `m`. -/
def WritesBackOther (s : State) (m : Text) : Prop := ∃ r, s.prog[s.execPos]? = some r ∧ r.mnemonic ≠ m

/-- The counted branch at `fetch_pos` with operands `ops` has threshold `t` and counter `c`. -/
def BranchReads (s : State) (ops : List Text) (t c : Int) : Prop :=
  (∃ u, ops[0]? = some u ∧ parseInt u = some t) ∧ s.ctr.lookup s.fetchPos = some c

/-- The label at index `k` of the operands names instruction `dst`. -/
def Names (s : State) (ops : List Text) (k dst : Nat) : Prop :=
  (∃ l, ops[k]? = some l ∧ s.sym.lookup l = some dst) ∧ dst < s.count

/-- The control-hazard check lets `i` pass (41_fetch_unit.md R81 to R84). -/
def ControlPasses (i : Instr) (s : State) : Prop :=
  match i with
  | .generic _ _ _ => True
  | .lw _ _ => True
  | .sw _ _ => True
  | .jal _ _ => WritesBack s Config.mnJump
  | .bge _ ops =>
    ∃ t c, BranchReads s ops t c ∧
      (WritesBack s Config.mnBr1 ∨ c < t ∧ WritesBackOther s Config.mnBr1)
  | .ble _ ops =>
    ∃ t c, BranchReads s ops t c ∧
      (WritesBack s Config.mnBr2 ∨ t < c ∧ WritesBackOther s Config.mnBr2)

/-- The state after a completed cycle in which the execute cursor advanced and the fetch cursor stayed. -/
def State.afterStay (s : State) (fs : Status) : State :=
  { s with
    execPos := s.fetchPos, writebackPos := s.execPos, fetchStatus := fs, executeStatus := .free
    cycles := s.cycles + 1 }

/-- The state after a completed cycle in which the fetch unit moved to `dst` and left the counters `ctr`. -/
def State.afterMove (s : State) (dst : Nat) (ctr : List (Nat × Int)) : State :=
  { s with
    fetchPos := dst, execPos := s.fetchPos, writebackPos := s.execPos, fetchStatus := .free
    executeStatus := .free, ctr := ctr, cycles := s.cycles + 1 }

/-! ### The invariant -/

/-- The largest value the counter of a record takes (10_state.md R19): `max(T, 0)` for a `bge`,
`max(T + 1, 0)` for a `ble`; a counter that is never updated stays 0. -/
def counterBound (r : Record) : Int :=
  match classOf r.mnemonic, (r.operands[0]?).bind parseInt with
  | .br1, some t => max t 0
  | .br2, some t => max (t + 1) 0
  | _, _ => 0

/-- What holds in every reachable state. The numeric order of the cursors is not part of it
(10_state.md R15, conflict C5). -/
structure State.Inv (s : State) : Prop where
  /-- The tables are in canonical form and name only indices of the program (10_state.md R19, R21). -/
  memory : Memory.wf s = true
  /-- Each cursor is in `[0, count)` (10_state.md R12 to R14). -/
  cursors : 0 < s.count → s.fetchPos < s.count ∧ s.execPos < s.count ∧ s.writebackPos < s.count
  /-- Every counted branch that can be examined without a fault has a counter (40_program_loader.md R70). -/
  counters : ∀ (i : Nat) (r : Record), s.prog[i]? = some r → isCountedBranch r = true → r.operands ≠ [] →
    (s.ctr.lookup i).isSome = true
  /-- Counters stay in their range (10_state.md R19). -/
  ranges : ∀ (i : Nat) (r : Record) (c : Int), s.prog[i]? = some r → s.ctr.lookup i = some c →
    0 ≤ c ∧ c ≤ counterBound r
  /-- A latency cycle holds fetch and finds the write-back cursor on the execute cursor
  (41_fetch_unit.md R76, 43_writeback_unit.md R98 (c)). -/
  latency : s.executeStatus = .stalled → s.fetchStatus = .stalled ∧ s.writebackPos = s.execPos ∧
    ∃ r, s.prog[s.execPos]? = some r ∧ needsLatency r = true
  /-- `F_INVARIANT` was never raised (60_exceptions.md R126). -/
  sound : s.fault ≠ some .invariant

/-- How far the cursors can have come: they leave index 0 no earlier than in cycles 1, 2 and 3
(70_reset_and_hazards.md R146, last row). -/
structure State.Filling (s : State) : Prop where
  fetch : s.cycles = 0 → s.fetchPos = 0
  execute : s.cycles ≤ 1 → s.execPos = 0
  writeback : s.cycles ≤ 2 → s.writebackPos = 0

/-- A program with no `jal`, `bge` or `ble` (70_reset_and_hazards.md R146). -/
def straightLine (prog : List Record) : Bool :=
  prog.all fun r => classOf r.mnemonic != .jump && classOf r.mnemonic != .br1 && classOf r.mnemonic != .br2

/-- In straight-line code the fetch cursor grows by at most one a cycle, and the others lag it
(70_reset_and_hazards.md R148). -/
structure State.Lag (s : State) : Prop where
  fetch : s.fetchPos ≤ s.cycles
  execute : s.execPos ≤ s.cycles - 1
  writeback : s.writebackPos ≤ s.cycles - 2

/-- A straight-line program without latency instructions, in which every instruction has an operand and no
instruction contains the needle of the one before it (70_reset_and_hazards.md R146, third row). -/
def hazardFree (prog : List Record) : Prop :=
  straightLine prog = true ∧ (∀ r ∈ prog, needsLatency r = false ∧ r.operands ≠ []) ∧
    ∀ (k : Nat) (r r' : Record) (d : Text), prog[k]? = some r → prog[k + 1]? = some r' →
      r.operands[0]? = some d → hazardWith r' d = false

/-- No state of the run faults. -/
def NeverFaults (src : Source) : Prop :=
  ∀ (n : Nat), ∃ s : State, Host.Core.run Sys2Proof.core n (State.resetWith src) = .next s ∧ s.fault = none

end Sys2Proof.Machine
end

