-- ==== Sys2Proof/Certificates/Slice0/Obligations.lean ====
section
/-!
DEFINITION. Statements about RV32I-PIPE3 for the provers, from the numbered rules of spec/. The conditions they
use (ExecuteAdvances, ScanPasses, FetchFreed, …) are those of Safety.lean. `exec i s` is the cycle of the machine
in which `i` stands at the fetch unit (log entry 2).
-/

open Sys2Proof Sys2Proof.Machine

/-! ### Texts, lines, instructions -/

/-- 30_encoding.md R38 to R44: the line an instruction is encoded to decodes to it, whatever its label, mnemonic
and operands are. -/
def Obligations.DecodeOfEncode : Prop :=
  ∀ i : Instr, i.wellFormed = true → decode (encode i) = .ok i

/-- 30_encoding.md R44: "The strip is unconditional: the loader does not look at what the character is." Any
eol-char that is not itself a separator or a terminator gives the same instruction. -/
def Obligations.EolCharIsNotLookedAt : Prop :=
  ∀ (i : Instr) (eol : Byte), i.wellFormed = true → eol ≠ Config.tokenSep → eol ≠ Config.labelTerm →
    eol ≠ Config.operandSep → decode (i.record.line eol) = .ok i

/-- 30_encoding.md R40 to R42: what a line decodes to is a well-formed instruction, so the well-formed ones are
exactly those some line carries. -/
def Obligations.DecodedIsWellFormed : Prop :=
  ∀ (line : Text) (i : Instr), Config.lineSep ∉ line → decode line = .ok i → i.wellFormed = true

/-- 40_program_loader.md R65: the only line that is no instruction is one with a terminator and no space. -/
def Obligations.DecodeRejectsLabelOnly : Prop :=
  ∀ line : Text, decode line = .error .labelOnlyLine ↔
    Config.labelTerm ∈ line ∧ Config.tokenSep ∉ line

/-- 30_encoding.md R42: the class is decided by exact comparison of the mnemonic with five strings. -/
def Obligations.MnemonicDecidesClass : Prop :=
  ∀ m : Text,
    (classOf m = .load ↔ m = bytesOf "lw") ∧ (classOf m = .store ↔ m = bytesOf "sw") ∧
    (classOf m = .jump ↔ m = bytesOf "jal") ∧ (classOf m = .br1 ↔ m = bytesOf "bge") ∧
    (classOf m = .br2 ↔ m = bytesOf "ble") ∧
    (classOf m = .generic ↔ m ∉ ["lw", "sw", "jal", "bge", "ble"].map bytesOf)

/-- 30_encoding.md R56: lines of the spec's own table, one per row of the opcode table. -/
def Obligations.SpecLinesDecode : Prop :=
  decode (bytesOf "end: addi x3, x3, 1\r") =
      .ok (.generic (some (bytesOf "end")) (bytesOf "addi") (["x3", "x3", "1"].map bytesOf)) ∧
  decode (bytesOf "lw a1, 0(a2)\r") = .ok (.lw none (["a1", "0(a2)"].map bytesOf)) ∧
  decode (bytesOf "sw b1, 0(b2)\r") = .ok (.sw none (["b1", "0(b2)"].map bytesOf)) ∧
  decode (bytesOf "jal end\r") = .ok (.jal none [bytesOf "end"]) ∧
  decode (bytesOf "bge 2, out\r") = .ok (.bge none (["2", "out"].map bytesOf)) ∧
  decode (bytesOf "l: ble 0, l\r") = .ok (.ble (some (bytesOf "l")) (["0", "l"].map bytesOf)) ∧
  decode (bytesOf "name:\r") = .error .labelOnlyLine

/-- 00_scope.md R7: `Contains(t, u)` holds when `u` occurs in `t` at some offset. -/
def Obligations.ContainsIsOccurrence : Prop :=
  ∀ t u : Text, containsText t u = true ↔ ∃ a b : Text, t = a ++ u ++ b

/-- 41_fetch_unit.md R79: the label (never the sentinel), the mnemonic and every operand are tested for the
needle, by substring. -/
def Obligations.HazardTestsEveryToken : Prop :=
  ∀ (r : Record) (d : Text), hazardWith r d = true ↔
    ∃ t : Text, (r.label = some t ∨ r.mnemonic = t ∨ t ∈ r.operands) ∧ ∃ a b : Text, t = a ++ d ++ b

/-- 30_encoding.md R49: `ParseInt` accepts an optional `-` and one or more decimal digits, with the value they
write, and nothing else. -/
def Obligations.ParseIntReadsDecimal : Prop :=
  ∀ (t : Text) (v : Int), parseInt t = some v ↔
    ∃ ds : Text, ds ≠ [] ∧ (∀ b ∈ ds, 0x30 ≤ b.toNat ∧ b.toNat ≤ 0x39) ∧
      (t = ds ∧ v = (ds.foldl (fun a b => 10 * a + (b.toNat - 0x30)) 0 : Nat) ∨
        t = 0x2D#8 :: ds ∧ v = -((ds.foldl (fun a b => 10 * a + (b.toNat - 0x30)) 0 : Nat) : Int))

/-- 42_execute_unit.md R92, 30_encoding.md R50: what costs a latency cycle. -/
def Obligations.LatencyCauses : Prop :=
  ∀ r : Record, needsLatency r = true ↔
    r.mnemonic = bytesOf "lw" ∨ r.mnemonic = bytesOf "sw" ∨
      ∃ t, r.operands.getLast? = some t ∧ containsText t (bytesOf "0x") = true

/-! ### The loader and reset -/

/-- 40_program_loader.md R58: the text is cut at every LF into its lines, a final empty piece is dropped and every
other piece is kept, and every line produces exactly one record, in line order. No line contains LF, and the
lines, each with an LF behind it, give back the text with its last line ended. -/
def Obligations.LoadMakesOneRecordPerLine : Prop :=
  ∀ b : Text,
    (∀ line ∈ linesOf b, Config.lineSep ∉ line) ∧
    ((linesOf b).flatMap fun line => line ++ [Config.lineSep]) =
      (if b = [] ∨ b.getLast? = some Config.lineSep then b else b ++ [Config.lineSep]) ∧
    ∀ t : Tables, load (.text b) = .ok t →
      t.prog.length = (linesOf b).length ∧
      ∀ (k : Nat) (line : Text), (linesOf b)[k]? = some line →
        ∃ raw, rawRecord line = .ok raw ∧ t.prog[k]? = some raw.finalStrip

/-- 40_program_loader.md R71: exactly one entry per labelled line, `Sym[label(i)] = i`, all labels distinct. -/
def Obligations.LoadedSymbolTable : Prop :=
  ∀ (b : Text) (t : Tables), load (.text b) = .ok t →
    (∀ (l : Text) (k : Nat), t.sym.lookup l = some k ↔
      ∃ line, (linesOf b)[k]? = some line ∧ lineLabel line = some l) ∧
    (t.sym.map (·.1)).Nodup ∧
    t.sym.length = ((linesOf b).filter fun line => (lineLabel line).isSome).length

/-- 40_program_loader.md R70, first sentence, and 10_state.md R19: after load every counted branch with an
operand has a counter, and every counter is 0. -/
def Obligations.LoadedCounters : Prop :=
  ∀ (b : Text) (t : Tables), load (.text b) = .ok t →
    (∀ (k : Nat) (r : Record), t.prog[k]? = some r → isCountedBranch r = true → r.operands ≠ [] →
      t.ctr.lookup k = some 0) ∧
    ∀ (k : Nat) (c : Int), t.ctr.lookup k = some c → c = 0 ∧ k < t.prog.length

/-- 40_program_loader.md R64: a label that is already a key raises `F_DUP_LABEL(i)`, `i` the second
definition. -/
def Obligations.DuplicateLabelFaults : Prop :=
  ∀ (b : Text) (pre post : List Text) (line l : Text) (t : Tables),
    linesOf b = pre ++ line :: post → loadLines 0 pre Tables.empty = .ok t →
    lineLabel line = some l → (∃ line' ∈ pre, lineLabel line' = some l) →
    load (.text b) = .error (.dupLabel pre.length)

/-- 40_program_loader.md R65: a new label with no further piece on its line raises `F_LABEL_ONLY_LINE(i)`. -/
def Obligations.LabelOnlyLineFaults : Prop :=
  ∀ (b : Text) (pre post : List Text) (line l : Text) (t : Tables),
    linesOf b = pre ++ line :: post → loadLines 0 pre Tables.empty = .ok t →
    lineLabel line = some l → (∀ line' ∈ pre, lineLabel line' ≠ some l) → Config.tokenSep ∉ line →
    load (.text b) = .error (.labelOnlyLine pre.length)

/-- 60_exceptions.md R125: a loader fault is recorded at reset, no cycle is taken, `done` is not reported. That
the tables are then empty and that the step event answers the fault are the model's choices (log entries 5
and 3). -/
def Obligations.LoaderFaultStopsAtReset : Prop :=
  ∀ (src : Source) (c : Cause), load src = .error c →
    State.resetWith src = State.reset.raise c ∧ (State.resetWith src).cycles = 0 ∧
      (State.resetWith src).done = false ∧ step (State.resetWith src) = .fault (.halted c)

/-- 70_reset_and_hazards.md R140, R141: the value of every piece of state after reset. -/
def Obligations.ResetGivesTheStatedValues : Prop :=
  ∀ (src : Source) (t : Tables), load src = .ok t →
    State.resetWith src =
      { prog := t.prog, sym := t.sym, ctr := t.ctr, fetchPos := 0, execPos := 0, writebackPos := 0
        fetchStatus := .free, executeStatus := .free, cycles := 0, fault := none }

/-- 60_exceptions.md R121, 44_cycle_driver.md R102: an unreadable or empty source is no fault and runs zero
cycles. -/
def Obligations.UnreadableRunsZeroCycles : Prop :=
  State.resetWith .unreadable = State.reset ∧ State.resetWith (.text []) = State.reset ∧
    State.reset.done = true ∧ State.reset.result = some 0 ∧ State.reset.fault = none

/-! ### Write-back and execute units, for every instruction at the fetch unit -/

/-- 43_writeback_unit.md R97: `writeback_pos <- exec_pos`, the value the previous cycle left, in every cycle. -/
def Obligations.WriteBackCopiesCursor : Prop :=
  ∀ (i : Instr) (s t : State), Completes i s t → t.writebackPos = s.execPos

/-- 43_writeback_unit.md R96, 41_fetch_unit.md R86: a `fetch_status` that is `STALLED` becomes `FREE` only
through the release condition, and without it fetch is held. -/
def Obligations.OnlyWriteBackFreesFetch : Prop :=
  ∀ (i : Instr) (s t : State), Completes i s t → s.fetchStatus = .stalled → s.writebackPos ≠ s.execPos →
    t.fetchStatus = .stalled ∧ t.fetchPos = s.fetchPos ∧ t.ctr = s.ctr

/-- 42_execute_unit.md R91, R92, R93: the three cases of the execute unit. -/
def Obligations.ExecuteUnitCases : Prop :=
  ∀ (i : Instr) (s t : State), Completes i s t →
    (s.executeStatus = .stalled → t.executeStatus = .free ∧ t.execPos = s.fetchPos) ∧
    (s.executeStatus = .free → ∀ r, s.prog[s.execPos]? = some r →
      (needsLatency r = true → t.executeStatus = .stalled ∧ t.execPos = s.execPos) ∧
      (needsLatency r = false → t.executeStatus = .free ∧ t.execPos = s.fetchPos))

/-- 46_instr_load_store.md R110 to R112, 42_execute_unit.md R92, 41_fetch_unit.md R76: when a load, a store or an
instruction with a hexadecimal last operand is inspected, the cycle is its latency cycle: it completes whatever
stands at `fetch_pos`, no record is read by the fetch unit, and fetch is held by back-pressure. -/
def Obligations.LatencyCycle : Prop :=
  ∀ (i : Instr) (s : State), ExecuteStalls s →
    exec i s = .next { s with
      writebackPos := s.execPos, fetchStatus := .stalled, executeStatus := .stalled
      cycles := s.cycles + 1 }

/-- 43_writeback_unit.md R96, R98 (b), (c), 70_reset_and_hazards.md R147: after a cycle that leaves fetch stalled,
the write-back unit of the next cycle, or of the one after it, finds the cursors equal and leaves `fetch_status`
FREE; after a latency cycle, that of the next. -/
def Obligations.StallIsReleasedWithinTwoCycles : Prop :=
  ∀ (i j : Instr) (s t u : State), Completes i s t → t.fetchStatus = .stalled → Completes j t u →
    (t.executeStatus = .stalled →
      t.writebackPos = t.execPos ∧ (writeBackUnit t).fetchStatus = .free) ∧
    (t.writebackPos = t.execPos ∧ (writeBackUnit t).fetchStatus = .free ∨
      u.writebackPos = u.execPos ∧ (writeBackUnit u).fetchStatus = .free)

/-! ### Fetch unit, for every instruction -/

/-- 41_fetch_unit.md R80: a data hazard sets `fetch_status` and ends the evaluation. -/
def Obligations.DataHazardStalls : Prop :=
  ∀ (i : Instr) (s : State) (k : Nat), ExecuteAdvances s → ScanStallsAt s i.record k →
    exec i s = .next (s.afterStay .stalled)

/-- 41_fetch_unit.md R86: no check stalls, but the flag is still set from before: fetch is held. -/
def Obligations.StickyFlagHoldsFetch : Prop :=
  ∀ (i : Instr) (s : State), ReachesControl s i.record → ControlPasses i s → s.fetchStatus = .stalled →
    s.writebackPos ≠ s.execPos → exec i s = .next (s.afterStay .stalled)

/-- 41_fetch_unit.md R88 (c), (d): with `fetch_pos = last` and no stall, phase 4 does nothing: no advance, no
jump, no counter update, no label looked up. -/
def Obligations.LastIsNeverLeft : Prop :=
  ∀ (i : Instr) (s : State), ReachesControl s i.record → ControlPasses i s → FetchFreed s →
    s.fetchPos = s.last → exec i s = .next (s.afterStay .free)

/-- 41_fetch_unit.md R88 (a), (b): `fetch_pos` and `Ctr` change only when both statuses end `FREE` and
`fetch_pos ≠ last`, and `fetch_pos` goes to the next index or to a symbol value. -/
def Obligations.FetchMovesOnlyWhenFree : Prop :=
  ∀ (i : Instr) (s t : State), Completes i s t →
    (t.fetchPos ≠ s.fetchPos ∨ t.ctr ≠ s.ctr →
      t.fetchStatus = .free ∧ t.executeStatus = .free ∧ s.fetchPos ≠ s.last) ∧
    (t.fetchPos = s.fetchPos ∨ t.fetchPos = s.fetchPos + 1 ∨ ∃ l, s.sym.lookup l = some t.fetchPos)

/-! ### Each instruction's own effect -/

/-- 45_instr_generic.md R108, 46_instr_load_store.md R110, R111: a generic instruction, a load and a store advance
`fetch_pos` by one; no register, no memory, no counter is written. -/
def Obligations.OrdinaryInstructionsAdvance : Prop :=
  ∀ (i : Instr) (s : State),
    (∃ l m ops, i = .generic l m ops) ∨ (∃ l ops, i = .lw l ops) ∨ (∃ l ops, i = .sw l ops) →
    ReachesControl s i.record → FetchFreed s → s.fetchPos ≠ s.last →
    exec i s = .next (s.afterMove (s.fetchPos + 1) s.ctr)

/-- 47_instr_jal.md R113: a `jal` released by the mnemonic at `writeback_pos` jumps to the symbol value of its
index-2 token; nothing else is written. -/
def Obligations.JalJumps : Prop :=
  ∀ (l : Option Text) (ops : List Text) (s : State) (dst : Nat),
    ReachesControl s (Instr.jal l ops).record → WritesBack s Config.mnJump → FetchFreed s →
    s.fetchPos ≠ s.last → Names s ops 0 dst →
    exec (.jal l ops) s = .next (s.afterMove dst s.ctr)

/-- 41_fetch_unit.md R82: "stall unless the instruction currently at `writeback_pos` is itself an unconditional
jump": any other mnemonic there stalls the `jal`, and a `jal` there does not. -/
def Obligations.JalControlStall : Prop :=
  ∀ (l : Option Text) (ops : List Text) (s : State), ReachesControl s (Instr.jal l ops).record →
    (WritesBackOther s Config.mnJump → exec (.jal l ops) s = .next (s.afterStay .stalled)) ∧
    (WritesBack s Config.mnJump → FetchFreed s → ∀ t, Completes (.jal l ops) s t → t.fetchStatus = .free)

/-- 47_instr_jal.md R114 (c): in the cycle after a forward jump from `j` to `k`, the needle of the `jal` is the
label text of the target, so the target is a data hazard and fetch stalls. -/
def Obligations.ForwardJumpHitsItsOwnLabel : Prop :=
  ∀ (s : State) (l : Option Text) (target : Text) (ops : List Text) (r : Record),
    s.prog[s.execPos]? = some (Instr.jal l (target :: ops)).record → s.execPos < s.fetchPos →
    s.prog[s.fetchPos]? = some r → r.label = some target → ExecuteAdvances s →
    exec r.instr s = .next (s.afterStay .stalled)

/-- 48_instr_counted_branches.md R115: a `bge` with counter below its threshold is not taken and does not stall:
counter + 1, sequential advance, label not read. -/
def Obligations.BgeNotTaken : Prop :=
  ∀ (l : Option Text) (ops : List Text) (s : State) (t c : Int),
    ReachesControl s (Instr.bge l ops).record → BranchReads s ops t c → c < t → FetchFreed s →
    s.fetchPos ≠ s.last → (∃ r, s.prog[s.execPos]? = some r) →
    exec (.bge l ops) s = .next (s.afterMove (s.fetchPos + 1) (putCtr s.fetchPos (c + 1) s.ctr)) ∧
      (putCtr s.fetchPos (c + 1) s.ctr).lookup s.fetchPos = some (c + 1)

/-- 48_instr_counted_branches.md R115: a released `bge` whose counter has reached its threshold is taken: counter
reset, jump to its label. -/
def Obligations.BgeTaken : Prop :=
  ∀ (l : Option Text) (ops : List Text) (s : State) (t c : Int) (dst : Nat),
    ReachesControl s (Instr.bge l ops).record → BranchReads s ops t c → t ≤ c →
    WritesBack s Config.mnBr1 → FetchFreed s → s.fetchPos ≠ s.last → Names s ops 1 dst →
    exec (.bge l ops) s = .next (s.afterMove dst (putCtr s.fetchPos 0 s.ctr)) ∧
      (putCtr s.fetchPos 0 s.ctr).lookup s.fetchPos = some 0

/-- 41_fetch_unit.md R83: a `bge` whose counter has reached its threshold stalls unless a `bge` is at
`writeback_pos`; one that will not be taken never stalls for control. -/
def Obligations.BgeControlStall : Prop :=
  ∀ (l : Option Text) (ops : List Text) (s : State) (t c : Int),
    ReachesControl s (Instr.bge l ops).record → BranchReads s ops t c →
    (t ≤ c → WritesBackOther s Config.mnBr1 → exec (.bge l ops) s = .next (s.afterStay .stalled)) ∧
    (c < t ∨ WritesBack s Config.mnBr1 → FetchFreed s →
      ∀ u, Completes (.bge l ops) s u → u.fetchStatus = .free)

/-- 48_instr_counted_branches.md R116: a released `ble` whose counter has not exceeded its threshold is taken:
counter + 1, jump to its label. -/
def Obligations.BleTaken : Prop :=
  ∀ (l : Option Text) (ops : List Text) (s : State) (t c : Int) (dst : Nat),
    ReachesControl s (Instr.ble l ops).record → BranchReads s ops t c → c ≤ t →
    WritesBack s Config.mnBr2 → FetchFreed s → s.fetchPos ≠ s.last → Names s ops 1 dst →
    exec (.ble l ops) s = .next (s.afterMove dst (putCtr s.fetchPos (c + 1) s.ctr)) ∧
      (putCtr s.fetchPos (c + 1) s.ctr).lookup s.fetchPos = some (c + 1)

/-- 48_instr_counted_branches.md R116: a `ble` whose counter has exceeded its threshold is not taken and does not
stall: counter reset, sequential advance, label not read. -/
def Obligations.BleNotTaken : Prop :=
  ∀ (l : Option Text) (ops : List Text) (s : State) (t c : Int),
    ReachesControl s (Instr.ble l ops).record → BranchReads s ops t c → t < c → FetchFreed s →
    s.fetchPos ≠ s.last → (∃ r, s.prog[s.execPos]? = some r) →
    exec (.ble l ops) s = .next (s.afterMove (s.fetchPos + 1) (putCtr s.fetchPos 0 s.ctr)) ∧
      (putCtr s.fetchPos 0 s.ctr).lookup s.fetchPos = some 0

/-- 41_fetch_unit.md R84: a `ble` whose counter has not exceeded its threshold stalls unless a `ble` is at
`writeback_pos`; one that will not be taken does not stall. -/
def Obligations.BleControlStall : Prop :=
  ∀ (l : Option Text) (ops : List Text) (s : State) (t c : Int),
    ReachesControl s (Instr.ble l ops).record → BranchReads s ops t c →
    (c ≤ t → WritesBackOther s Config.mnBr2 → exec (.ble l ops) s = .next (s.afterStay .stalled)) ∧
    (t < c ∨ WritesBack s Config.mnBr2 → FetchFreed s →
      ∀ u, Completes (.ble l ops) s u → u.fetchStatus = .free)

/-- 48_instr_counted_branches.md R115, R116, R117: the outcomes of successive resolutions from counter 0. A `bge`
with `T ≥ 1` is not taken `T` times, then taken once with the counter back at 0, and with `T ≤ 0` it is taken
every time; a `ble` with `T ≥ 0` is taken `T + 1` times, then not taken once, and with `T < 0` it is never
taken. -/
def Obligations.BranchOutcomesArePeriodic : Prop :=
  (∀ T k : Nat, k < T → (fun c => br1Next c T)^[k] 0 = k ∧ br1Taken k T = false) ∧
  (∀ T : Nat, (fun c => br1Next c T)^[T] 0 = T ∧ br1Taken T T = true ∧
    (fun c => br1Next c T)^[T + 1] 0 = 0) ∧
  (∀ T : Int, T ≤ 0 → br1Taken 0 T = true ∧ br1Next 0 T = 0) ∧
  (∀ T k : Nat, k ≤ T → (fun c => br2Next c T)^[k] 0 = k ∧ br2Taken k T = true) ∧
  (∀ T : Nat, (fun c => br2Next c T)^[T + 1] 0 = T + 1 ∧ br2Taken (T + 1) T = false ∧
    (fun c => br2Next c T)^[T + 2] 0 = 0) ∧
  (∀ T : Int, T < 0 → br2Taken 0 T = false ∧ br2Next 0 T = 0)

/-! ### Faults -/

/-- 60_exceptions.md R122: a `jal`, or a counted branch that is taken, whose label is no key of `Sym` raises
`F_UNRESOLVED_LABEL(p)` in the cycle the transfer would be performed. -/
def Obligations.UnresolvedLabelFaults : Prop :=
  ∀ (i : Instr) (s : State) (ops : List Text) (k : Nat),
    ((∃ l, i = .jal l ops) ∧ k = 0 ∧ WritesBack s Config.mnJump ∨
      (∃ l t c, i = .bge l ops ∧ BranchReads s ops t c ∧ t ≤ c) ∧ k = 1 ∧ WritesBack s Config.mnBr1 ∨
      (∃ l t c, i = .ble l ops ∧ BranchReads s ops t c ∧ c ≤ t) ∧ k = 1 ∧ WritesBack s Config.mnBr2) →
    ReachesControl s i.record → FetchFreed s → s.fetchPos ≠ s.last →
    (∃ label, ops[k]? = some label ∧ s.sym.lookup label = none) →
    exec i s = .next (s.raise (.unresolvedLabel s.fetchPos))

/-- 60_exceptions.md R123: a threshold that is no integer raises `F_BAD_THRESHOLD(p)` at the control check,
whatever the flags are and even with `p = last`. -/
def Obligations.BadThresholdFaults : Prop :=
  ∀ (i : Instr) (s : State) (l : Option Text) (u : Text) (ops : List Text),
    i = .bge l (u :: ops) ∨ i = .ble l (u :: ops) → ReachesControl s i.record → parseInt u = none →
    exec i s = .next (s.raise (.badThreshold s.fetchPos))

/-- 60_exceptions.md R124: the scan of an instruction without operand raises `F_SHORT_RECORD` with the index of
that instruction. -/
def Obligations.ShortRecordScanFaults : Prop :=
  ∀ (i : Instr) (s : State) (k : Nat), ExecuteAdvances s → ScanShortAt s i.record k →
    exec i s = .next (s.raise (.shortRecord k))

/-- 60_exceptions.md R124: a counted branch without threshold, a performed `jal` without operand and a taken
counted branch without label raise `F_SHORT_RECORD(p)`. -/
def Obligations.MissingOperandFaults : Prop :=
  ∀ (i : Instr) (s : State) (l : Option Text), ReachesControl s i.record →
    (i = .bge l [] ∨ i = .ble l [] ∨
      (FetchFreed s ∧ s.fetchPos ≠ s.last ∧
        (i = .jal l [] ∧ WritesBack s Config.mnJump ∨
          (∃ u t c, i = .bge l [u] ∧ BranchReads s [u] t c ∧ t ≤ c) ∧ WritesBack s Config.mnBr1 ∨
          (∃ u t c, i = .ble l [u] ∧ BranchReads s [u] t c ∧ c ≤ t) ∧ WritesBack s Config.mnBr2))) →
    exec i s = .next (s.raise (.shortRecord s.fetchPos))

/-- 60_exceptions.md R128: a cycle either is completed, counted and leaves the fault register as it was, or has no
effect but to write a cause into the fault register. -/
def Obligations.FaultEntryIsPrecise : Prop :=
  ∀ (i : Instr) (s t : State), exec i s = .next t →
    (t.cycles = s.cycles + 1 ∧ t.fault = s.fault) ∨ ∃ c, t = { s with fault := some c }

/-- 60_exceptions.md R128: with a fault recorded the engine takes no further cycle and `done` is never reported.
That the step event then answers the fault is the model's choice (log entry 3). -/
def Obligations.HaltedEngineTakesNoCycle : Prop :=
  ∀ (s : State) (c : Cause), s.fault = some c →
    step s = .fault (.halted c) ∧ s.done = false ∧ s.result = none

/-! ### The machine -/

/-- 30_encoding.md R53: "any head or second token is accepted as a mnemonic, and an unknown one is generic": every
label, mnemonic and operand list a line can carry is decoded; one with an unknown mnemonic is the generic
instruction, which completes and advances under the conditions of `OrdinaryInstructionsAdvance`; and in every
state the instruction either completes a cycle that moves the write-back cursor or raises a fault. That the
raising cycle answers a next state is the model's choice (log entry 3). -/
def Obligations.NoInstructionIsRefused : Prop :=
  ∀ (l : Option Text) (m : Text) (ops : List Text), labelOk l = true → tokenOk m = true → headOk l m = true →
    (∀ t ∈ ops, tokenOk t = true) →
    ∃ i : Instr, decode (Record.line Config.eolChar ⟨l, m, ops⟩) = .ok i ∧ i.record = ⟨l, m, ops⟩ ∧
      (m ∉ ["lw", "sw", "jal", "bge", "ble"].map bytesOf → i = .generic l m ops ∧
        ∀ s : State, ReachesControl s ⟨l, m, ops⟩ → FetchFreed s → s.fetchPos ≠ s.last →
          exec i s = .next (s.afterMove (s.fetchPos + 1) s.ctr)) ∧
      ∀ s : State, ∃ t : State, exec i s = .next t ∧
        (t.cycles = s.cycles + 1 ∧ t.writebackPos = s.execPos ∧ t.fault = s.fault ∨
          ∃ c, t = { s with fault := some c })

/-- 44_cycle_driver.md R99, R100: from a state in which the run is neither ended nor faulted, a step is the cycle
of the instruction whose record stands at `fetch_pos`, and nothing is added to it. -/
def Obligations.StepRunsFetchedInstruction : Prop :=
  ∀ (s : State) (i : Instr), s.fault = none → s.atEnd = false → i.wellFormed = true →
    s.prog[s.fetchPos]? = some i.record → step s = exec i s

/-- 44_cycle_driver.md R100: no cycle is taken from a state in which `done` holds. That the step event then
answers the same state is the model's choice (log entry 4). -/
def Obligations.DoneTakesNoCycle : Prop :=
  ∀ s : State, s.done = true → step s = .next s ∧ s.result = some s.cycles

/-- Log entries 9 and 10, the model's own: the instruction read from a bit-numbered word (`tableLine`,
`decodeTableWord`) is the one the very next step runs where `withFetchWord` has placed the word. -/
def Obligations.PlacedWordRuns : Prop :=
  ∀ (s : State) (nbits w : Nat) (i : Instr), decodeTableWord nbits w = some i →
    step (s.withFetchWord nbits w) = exec i (s.withFetchWord nbits w)

/-- 20_memory.md R36, 10_state.md R20, R21: no step writes the instruction records or the symbol table. -/
def Obligations.ProgramIsNeverWritten : Prop :=
  ∀ s t : State, step s = .next t → t.prog = s.prog ∧ t.sym = s.sym

/-- 20_memory.md R28, 41_fetch_unit.md R85, R88 (a): no instruction but a counted branch touches a counter, and a
counted branch touches only its own; no counter appears or disappears; and when `fetch_pos` advances from a
counted branch its counter becomes what R85 says, else it stays. -/
def Obligations.CounterFrame : Prop :=
  ∀ (i : Instr) (s t : State), exec i s = .next t →
    t.ctr.map (·.1) = s.ctr.map (·.1) ∧ (∀ k, k ≠ s.fetchPos → t.ctr.lookup k = s.ctr.lookup k) ∧
    ((∀ l ops, i ≠ .bge l ops ∧ i ≠ .ble l ops) → t.ctr = s.ctr) ∧
    (∀ (l : Option Text) (ops : List Text) (v c : Int), i = .bge l ops → BranchReads s ops v c →
      t.ctr.lookup s.fetchPos = some (if t.fetchPos = s.fetchPos ∧ t.ctr = s.ctr then c
        else if v ≤ c then 0 else c + 1)) ∧
    ∀ (l : Option Text) (ops : List Text) (v c : Int), i = .ble l ops → BranchReads s ops v c →
      t.ctr.lookup s.fetchPos = some (if t.fetchPos = s.fetchPos ∧ t.ctr = s.ctr then c
        else if c ≤ v then c + 1 else 0)

/-- 44_cycle_driver.md R103: the sequential cycle and the simultaneous next-state function are equal; a fault
aborts the whole step. -/
def Obligations.CycleEqualsNextStateFunction : Prop :=
  ∀ (i : Instr) (s : State), exec i s =
    match nextState i s with
    | .ok t => .next t
    | .error c => .next { s with fault := some c }

/-- The invariant of 60_exceptions.md R126 and 10_state.md R12 to R19, from every state that has it. -/
def Obligations.StepKeepsInvariant : Prop :=
  ∀ s t : State, s.Inv → step s = .next t → t.Inv

/-- Reset has the invariant, with the tables empty. -/
def Obligations.ResetMeetsInvariant : Prop := State.reset.Inv

/-- Whatever the source, the state after reset has the invariant (40_program_loader.md R70, R71). -/
def Obligations.EveryLoadMeetsInvariant : Prop := ∀ src : Source, (State.resetWith src).Inv

/-- 60_exceptions.md R126: "this fault is unreachable in a correct model and no program text can cause it". -/
def Obligations.InvariantFaultIsUnreachable : Prop :=
  ∀ s : State, Reachable s → s.fault ≠ some .invariant

/-- 30_encoding.md R52: for a well-formed source no fault can be raised. Which eol-chars such a source may use is
read from R52 by inference (log entry 14). -/
def Obligations.WellFormedSourceNeverFaults : Prop :=
  ∀ b : Text, wellFormedText b = true → NeverFaults (.text b)

/-- 70_reset_and_hazards.md R148 (a), the reason it gives: in straight-line code `fetch_pos` grows by at most one a
cycle and the other cursors lag it by one and two cycles. It holds after reset with any source, and every step
keeps it, from every state that has it. -/
def Obligations.StepKeepsLag : Prop :=
  (∀ src : Source, (State.resetWith src).Lag) ∧
    ∀ s t : State, straightLine s.prog = true → s.Lag → step s = .next t → t.Lag

/-- 70_reset_and_hazards.md R148 (a): a straight-line program with `count ≥ 2` takes at least `count + 1`
cycles. -/
def Obligations.StraightLineLowerBound : Prop :=
  ∀ s : State, Reachable s → straightLine s.prog = true → 2 ≤ s.count → s.done = true →
    s.count + 1 ≤ s.cycles

/-- 70_reset_and_hazards.md R146: a terminating program with `count ≥ 2` takes at least 3 cycles. -/
def Obligations.AtLeastThreeCycles : Prop :=
  ∀ s : State, Reachable s → 2 ≤ s.count → s.done = true → 3 ≤ s.cycles

/-- 70_reset_and_hazards.md R146, third row: a straight-line program with `count ≥ 2` and no hazard of any kind
ends after exactly `count + 1` cycles, and not before. -/
def Obligations.HazardFreeBaseline : Prop :=
  ∀ (b : Text) (t : Tables), load (.text b) = .ok t → hazardFree t.prog → 2 ≤ t.prog.length →
    (∃ s : State, Host.Core.run core (t.prog.length + 1) (State.resetWith (.text b)) = .next s ∧
      s.result = some (t.prog.length + 1)) ∧
    ∀ n, n ≤ t.prog.length →
      ∃ s : State, Host.Core.run core n (State.resetWith (.text b)) = .next s ∧ s.done = false ∧ s.cycles = n
end

