-- ==== Sys2Proof/Laws/State.lean ====
section
/-!
SUPPORT. One lemma per field of State per named update, true by rfl, so that no later proof unfolds a record
update. `count` and `last` depend on `prog` alone and get a lemma per update too.
-/

namespace Sys2Proof.Machine

@[simp] theorem State.stallFetch_prog (s : State) : s.stallFetch.prog = s.prog := rfl
@[simp] theorem State.stallFetch_sym (s : State) : s.stallFetch.sym = s.sym := rfl
@[simp] theorem State.stallFetch_ctr (s : State) : s.stallFetch.ctr = s.ctr := rfl
@[simp] theorem State.stallFetch_fetchPos (s : State) : s.stallFetch.fetchPos = s.fetchPos := rfl
@[simp] theorem State.stallFetch_execPos (s : State) : s.stallFetch.execPos = s.execPos := rfl
@[simp] theorem State.stallFetch_writebackPos (s : State) : s.stallFetch.writebackPos = s.writebackPos := rfl
@[simp] theorem State.stallFetch_fetchStatus (s : State) : s.stallFetch.fetchStatus = .stalled := rfl
@[simp] theorem State.stallFetch_executeStatus (s : State) : s.stallFetch.executeStatus = s.executeStatus := rfl
@[simp] theorem State.stallFetch_cycles (s : State) : s.stallFetch.cycles = s.cycles := rfl
@[simp] theorem State.stallFetch_fault (s : State) : s.stallFetch.fault = s.fault := rfl
@[simp] theorem State.stallFetch_count (s : State) : s.stallFetch.count = s.count := rfl
@[simp] theorem State.stallFetch_last (s : State) : s.stallFetch.last = s.last := rfl

@[simp] theorem State.goto_prog (s : State) (t : Nat) : (s.goto t).prog = s.prog := rfl
@[simp] theorem State.goto_sym (s : State) (t : Nat) : (s.goto t).sym = s.sym := rfl
@[simp] theorem State.goto_ctr (s : State) (t : Nat) : (s.goto t).ctr = s.ctr := rfl
@[simp] theorem State.goto_fetchPos (s : State) (t : Nat) : (s.goto t).fetchPos = t := rfl
@[simp] theorem State.goto_execPos (s : State) (t : Nat) : (s.goto t).execPos = s.execPos := rfl
@[simp] theorem State.goto_writebackPos (s : State) (t : Nat) : (s.goto t).writebackPos = s.writebackPos := rfl
@[simp] theorem State.goto_fetchStatus (s : State) (t : Nat) : (s.goto t).fetchStatus = s.fetchStatus := rfl
@[simp] theorem State.goto_executeStatus (s : State) (t : Nat) : (s.goto t).executeStatus = s.executeStatus := rfl
@[simp] theorem State.goto_cycles (s : State) (t : Nat) : (s.goto t).cycles = s.cycles := rfl
@[simp] theorem State.goto_fault (s : State) (t : Nat) : (s.goto t).fault = s.fault := rfl
@[simp] theorem State.goto_count (s : State) (t : Nat) : (s.goto t).count = s.count := rfl
@[simp] theorem State.goto_last (s : State) (t : Nat) : (s.goto t).last = s.last := rfl

@[simp] theorem State.setCtr_prog (s : State) (i : Nat) (v : Int) : (s.setCtr i v).prog = s.prog := rfl
@[simp] theorem State.setCtr_sym (s : State) (i : Nat) (v : Int) : (s.setCtr i v).sym = s.sym := rfl
@[simp] theorem State.setCtr_ctr (s : State) (i : Nat) (v : Int) : (s.setCtr i v).ctr = putCtr i v s.ctr := rfl
@[simp] theorem State.setCtr_fetchPos (s : State) (i : Nat) (v : Int) : (s.setCtr i v).fetchPos = s.fetchPos := rfl
@[simp] theorem State.setCtr_execPos (s : State) (i : Nat) (v : Int) : (s.setCtr i v).execPos = s.execPos := rfl
@[simp] theorem State.setCtr_writebackPos (s : State) (i : Nat) (v : Int) : (s.setCtr i v).writebackPos = s.writebackPos := rfl
@[simp] theorem State.setCtr_fetchStatus (s : State) (i : Nat) (v : Int) : (s.setCtr i v).fetchStatus = s.fetchStatus := rfl
@[simp] theorem State.setCtr_executeStatus (s : State) (i : Nat) (v : Int) : (s.setCtr i v).executeStatus = s.executeStatus := rfl
@[simp] theorem State.setCtr_cycles (s : State) (i : Nat) (v : Int) : (s.setCtr i v).cycles = s.cycles := rfl
@[simp] theorem State.setCtr_fault (s : State) (i : Nat) (v : Int) : (s.setCtr i v).fault = s.fault := rfl
@[simp] theorem State.setCtr_count (s : State) (i : Nat) (v : Int) : (s.setCtr i v).count = s.count := rfl
@[simp] theorem State.setCtr_last (s : State) (i : Nat) (v : Int) : (s.setCtr i v).last = s.last := rfl

@[simp] theorem State.countCycle_prog (s : State) : s.countCycle.prog = s.prog := rfl
@[simp] theorem State.countCycle_sym (s : State) : s.countCycle.sym = s.sym := rfl
@[simp] theorem State.countCycle_ctr (s : State) : s.countCycle.ctr = s.ctr := rfl
@[simp] theorem State.countCycle_fetchPos (s : State) : s.countCycle.fetchPos = s.fetchPos := rfl
@[simp] theorem State.countCycle_execPos (s : State) : s.countCycle.execPos = s.execPos := rfl
@[simp] theorem State.countCycle_writebackPos (s : State) : s.countCycle.writebackPos = s.writebackPos := rfl
@[simp] theorem State.countCycle_fetchStatus (s : State) : s.countCycle.fetchStatus = s.fetchStatus := rfl
@[simp] theorem State.countCycle_executeStatus (s : State) : s.countCycle.executeStatus = s.executeStatus := rfl
@[simp] theorem State.countCycle_cycles (s : State) : s.countCycle.cycles = s.cycles + 1 := rfl
@[simp] theorem State.countCycle_fault (s : State) : s.countCycle.fault = s.fault := rfl
@[simp] theorem State.countCycle_count (s : State) : s.countCycle.count = s.count := rfl
@[simp] theorem State.countCycle_last (s : State) : s.countCycle.last = s.last := rfl

@[simp] theorem State.raise_prog (s : State) (c : Cause) : (s.raise c).prog = s.prog := rfl
@[simp] theorem State.raise_sym (s : State) (c : Cause) : (s.raise c).sym = s.sym := rfl
@[simp] theorem State.raise_ctr (s : State) (c : Cause) : (s.raise c).ctr = s.ctr := rfl
@[simp] theorem State.raise_fetchPos (s : State) (c : Cause) : (s.raise c).fetchPos = s.fetchPos := rfl
@[simp] theorem State.raise_execPos (s : State) (c : Cause) : (s.raise c).execPos = s.execPos := rfl
@[simp] theorem State.raise_writebackPos (s : State) (c : Cause) : (s.raise c).writebackPos = s.writebackPos := rfl
@[simp] theorem State.raise_fetchStatus (s : State) (c : Cause) : (s.raise c).fetchStatus = s.fetchStatus := rfl
@[simp] theorem State.raise_executeStatus (s : State) (c : Cause) : (s.raise c).executeStatus = s.executeStatus := rfl
@[simp] theorem State.raise_cycles (s : State) (c : Cause) : (s.raise c).cycles = s.cycles := rfl
@[simp] theorem State.raise_fault (s : State) (c : Cause) : (s.raise c).fault = some c := rfl
@[simp] theorem State.raise_count (s : State) (c : Cause) : (s.raise c).count = s.count := rfl
@[simp] theorem State.raise_last (s : State) (c : Cause) : (s.raise c).last = s.last := rfl

@[simp] theorem writeBackUnit_prog (s : State) : (writeBackUnit s).prog = s.prog := rfl
@[simp] theorem writeBackUnit_sym (s : State) : (writeBackUnit s).sym = s.sym := rfl
@[simp] theorem writeBackUnit_ctr (s : State) : (writeBackUnit s).ctr = s.ctr := rfl
@[simp] theorem writeBackUnit_fetchPos (s : State) : (writeBackUnit s).fetchPos = s.fetchPos := rfl
@[simp] theorem writeBackUnit_execPos (s : State) : (writeBackUnit s).execPos = s.execPos := rfl
@[simp] theorem writeBackUnit_writebackPos (s : State) : (writeBackUnit s).writebackPos = s.execPos := rfl
@[simp] theorem writeBackUnit_fetchStatus (s : State) : (writeBackUnit s).fetchStatus = fetchStatusAfterWriteBack s := rfl
@[simp] theorem writeBackUnit_executeStatus (s : State) : (writeBackUnit s).executeStatus = s.executeStatus := rfl
@[simp] theorem writeBackUnit_cycles (s : State) : (writeBackUnit s).cycles = s.cycles := rfl
@[simp] theorem writeBackUnit_fault (s : State) : (writeBackUnit s).fault = s.fault := rfl
@[simp] theorem writeBackUnit_count (s : State) : (writeBackUnit s).count = s.count := rfl
@[simp] theorem writeBackUnit_last (s : State) : (writeBackUnit s).last = s.last := rfl

/-! ### The default widths hold every value -/

@[simp] theorem holdsNat_unbounded (v : Nat) : holdsNat .unbounded v = true := rfl
@[simp] theorem holdsInt_unbounded (v : Int) : holdsInt .unbounded v = true := rfl

@[simp] theorem readThreshold_eq (t : Text) : readThreshold t = parseInt t := by
  unfold readThreshold
  cases parseInt t <;> simp [holdsThreshold, Config.ctrWidth]

@[simp] theorem State.fits_default (s : State) : s.fits = true := by
  simp [State.fits, Config.idxWidth, Config.ctrWidth, Config.cycWidth]

end Sys2Proof.Machine
end

