-- ==== Sys2Proof/Laws/Memory.lean ====
section
/-!
SUPPORT. The storage spaces keep their canonical form (`Memory.wf`): reset has it, a counter update, a line of the
loader and the placing of a line keep it. The counter update is the only write while the machine runs
(20_memory.md R31).
-/

namespace Sys2Proof.Machine

/-! ### The counter update -/

theorem putCtr_keys (i : Nat) (v : Int) (l : List (Nat × Int)) :
    (putCtr i v l).map (·.1) = l.map (·.1) := by
  induction l with
  | nil => rfl
  | cons e l ih =>
    simp only [putCtr, List.map_cons, List.cons.injEq] at ih ⊢
    refine ⟨?_, ih⟩
    split <;> simp_all

theorem lookup_putCtr_ne {i k : Nat} (h : k ≠ i) (v : Int) (l : List (Nat × Int)) :
    (putCtr i v l).lookup k = l.lookup k := by
  induction l with
  | nil => rfl
  | cons e l ih =>
    obtain ⟨a, b⟩ := e
    simp only [putCtr, List.map_cons] at ih ⊢
    by_cases ha : a = i
    · subst ha
      simp [List.lookup_cons, beq_eq_false_iff_ne.2 h, ih]
    · simp [ha, List.lookup_cons, ih]

theorem lookup_putCtr_self {i : Nat} {c : Int} {l : List (Nat × Int)} (h : l.lookup i = some c) (v : Int) :
    (putCtr i v l).lookup i = some v := by
  induction l with
  | nil => simp at h
  | cons e l ih =>
    obtain ⟨a, b⟩ := e
    simp only [putCtr, List.map_cons] at ih ⊢
    by_cases ha : a = i
    · simp [ha]
    · have hi : (i == a) = false := by simpa using Ne.symm ha
      simp only [List.lookup_cons, hi] at h
      simp [ha, List.lookup_cons, hi, ih h]

theorem lookup_putCtr_isSome (i k : Nat) (v : Int) (l : List (Nat × Int))
    (h : (l.lookup k).isSome = true) : ((putCtr i v l).lookup k).isSome = true := by
  by_cases hk : k = i
  · subst hk
    obtain ⟨c, hc⟩ := Option.isSome_iff_exists.1 h
    rw [lookup_putCtr_self hc]; rfl
  · rwa [lookup_putCtr_ne hk]

theorem mem_of_lookup {α β : Type} [BEq α] [LawfulBEq α] {l : List (α × β)} {a : α} {b : β}
    (h : l.lookup a = some b) : (a, b) ∈ l := by
  induction l with
  | nil => simp at h
  | cons e l ih =>
    obtain ⟨x, y⟩ := e
    rw [List.lookup_cons] at h
    split at h
    · rename_i he
      obtain rfl : y = b := by simpa using h
      obtain rfl : a = x := by simpa using he
      exact List.mem_cons_self
    · exact List.mem_cons_of_mem _ (ih h)

/-! ### Canonical form -/

/-- `Memory.wf` as a proposition. -/
theorem Memory.wf_iff (s : State) : Memory.wf s = true ↔
    (s.sym.map (·.1)).Nodup ∧ (s.sym.map (·.2)).Pairwise (· < ·) ∧ (∀ e ∈ s.sym, e.2 < s.count) ∧
      (s.ctr.map (·.1)).Pairwise (· < ·) ∧ ∀ e ∈ s.ctr, e.1 < s.count := by
  simp [Memory.wf, and_assoc]

theorem Memory.reset_wf : Memory.wf State.reset = true := by decide

/-- A state whose tables have the same symbols, the same counter keys and the same length is as canonical. -/
theorem Memory.wf_congr {s t : State} (hs : Memory.wf s = true) (hsym : t.sym = s.sym)
    (hctr : t.ctr.map (·.1) = s.ctr.map (·.1)) (hcount : t.count = s.count) : Memory.wf t = true := by
  rw [Memory.wf_iff] at hs ⊢
  obtain ⟨h1, h2, h3, h4, h5⟩ := hs
  rw [hsym, hcount, hctr]
  refine ⟨h1, h2, h3, h4, fun e he => ?_⟩
  have : e.1 ∈ s.ctr.map (·.1) := hctr ▸ List.mem_map_of_mem he
  obtain ⟨x, hx, hxe⟩ := List.mem_map.1 this
  exact hxe ▸ h5 x hx

theorem Memory.setCtr_wf {s : State} (h : Memory.wf s = true) (i : Nat) (v : Int) :
    Memory.wf (s.setCtr i v) = true :=
  Memory.wf_congr h rfl (putCtr_keys i v s.ctr) rfl

/-! ### The loader -/

/-- The tables of the first `n` lines: indices below `n`, rising, labels distinct. -/
structure Tables.Loaded (n : Nat) (t : Tables) : Prop where
  length : t.prog.length = n
  labels : (t.sym.map (·.1)).Nodup
  indices : (t.sym.map (·.2)).Pairwise (· < ·)
  symBound : ∀ e ∈ t.sym, e.2 < n
  keys : (t.ctr.map (·.1)).Pairwise (· < ·)
  ctrBound : ∀ e ∈ t.ctr, e.1 < n

theorem Tables.empty_loaded : Tables.empty.Loaded 0 := by
  constructor <;> simp [Tables.empty]

theorem lookup_isSome_iff {β : Type} (l : Text) (m : List (Text × β)) :
    (m.lookup l).isSome = true ↔ l ∈ m.map (·.1) := by
  induction m with
  | nil => simp
  | cons e m ih =>
    obtain ⟨a, b⟩ := e
    by_cases h : l = a
    · simp [h]
    · simp [List.lookup_cons, beq_eq_false_iff_ne.2 h, ih, h]

/-- Everything `addLabel` can do when it succeeds. -/
theorem addLabel_ok {i : Nat} {label : Option Text} {sym sym' : List (Text × Nat)}
    (h : addLabel i label sym = .ok sym') :
    (label = none ∧ sym' = sym) ∨
      ∃ l, label = some l ∧ l ∉ sym.map (·.1) ∧ sym' = sym ++ [(l, i)] := by
  unfold addLabel at h
  cases label with
  | none => exact .inl ⟨rfl, by simpa using h.symm⟩
  | some l =>
    dsimp only at h
    split at h
    · cases h
    · rename_i hl
      refine .inr ⟨l, rfl, ?_, by simpa using h.symm⟩
      rw [← lookup_isSome_iff]
      exact hl

/-- Everything `loadLine` can do when it succeeds. -/
theorem loadLine_ok {i : Nat} {line : Text} {t t' : Tables} (h : loadLine i line t = .ok t') :
    ∃ sym raw, addLabel i (lineLabel line) t.sym = .ok sym ∧ rawRecord line = .ok raw ∧
      t' = ⟨t.prog ++ [raw.finalStrip], sym, addCounter i raw t.ctr⟩ := by
  unfold loadLine at h
  split at h
  · cases h
  · rename_i sym hsym
    split at h
    · cases h
    · rename_i raw hraw
      exact ⟨sym, raw, hsym, hraw, by simpa using h.symm⟩

theorem pairwise_append_last {l : List Nat} {n : Nat} (h : l.Pairwise (· < ·)) (hn : ∀ a ∈ l, a < n) :
    (l ++ [n]).Pairwise (· < ·) := by
  rw [List.pairwise_append]
  exact ⟨h, List.pairwise_singleton _ _, fun a ha b hb => by
    rw [List.mem_singleton.1 hb]
    exact hn a ha⟩

theorem loadLine_loaded {i : Nat} {line : Text} {t t' : Tables} (h : loadLine i line t = .ok t')
    (ht : t.Loaded i) : t'.Loaded (i + 1) := by
  obtain ⟨sym, raw, hsym, -, rfl⟩ := loadLine_ok h
  have hs : (sym.map (·.1)).Nodup ∧ (sym.map (·.2)).Pairwise (· < ·) ∧ ∀ e ∈ sym, e.2 < i + 1 := by
    obtain ⟨-, rfl⟩ | ⟨l, -, hl, rfl⟩ := addLabel_ok hsym
    · exact ⟨ht.labels, ht.indices, fun e he => Nat.lt_succ_of_lt (ht.symBound e he)⟩
    · refine ⟨?_, ?_, ?_⟩
      · rw [List.map_append, List.nodup_append]
        refine ⟨ht.labels, by simp, ?_⟩
        intro a ha b hb hab
        simp only [List.map_cons, List.map_nil, List.mem_singleton] at hb
        exact hl (hb ▸ hab ▸ ha)
      · rw [List.map_append]
        refine pairwise_append_last ht.indices ?_
        intro a ha
        obtain ⟨e, he, rfl⟩ := List.mem_map.1 ha
        exact ht.symBound e he
      · intro e he
        rcases List.mem_append.1 he with he | he
        · exact Nat.lt_succ_of_lt (ht.symBound e he)
        · rw [List.mem_singleton.1 he]
          exact Nat.lt_succ_self i
  have hc : ((addCounter i raw t.ctr).map (·.1)).Pairwise (· < ·) ∧
      ∀ e ∈ addCounter i raw t.ctr, e.1 < i + 1 := by
    unfold addCounter
    split
    · refine ⟨?_, ?_⟩
      · rw [List.map_append]
        refine pairwise_append_last ht.keys ?_
        intro a ha
        obtain ⟨e, he, rfl⟩ := List.mem_map.1 ha
        exact ht.ctrBound e he
      · intro e he
        rcases List.mem_append.1 he with he | he
        · exact Nat.lt_succ_of_lt (ht.ctrBound e he)
        · rw [List.mem_singleton.1 he]
          exact Nat.lt_succ_self i
    · exact ⟨ht.keys, fun e he => Nat.lt_succ_of_lt (ht.ctrBound e he)⟩
  exact ⟨by simp [ht.length], hs.1, hs.2.1, hs.2.2, hc.1, hc.2⟩

theorem loadLines_loaded {i : Nat} {lines : List Text} {t t' : Tables} (h : loadLines i lines t = .ok t')
    (ht : t.Loaded i) : t'.Loaded (i + lines.length) := by
  induction lines generalizing i t with
  | nil => simpa [loadLines] using (by simpa [loadLines] using h : t = t') ▸ ht
  | cons line lines ih =>
    unfold loadLines at h
    split at h
    · cases h
    · rename_i t1 h1
      have := ih h (loadLine_loaded h1 ht)
      rwa [List.length_cons, Nat.add_comm lines.length 1, ← Nat.add_assoc]

theorem loadLines_append (i : Nat) (pre post : List Text) (t : Tables) :
    loadLines i (pre ++ post) t =
      match loadLines i pre t with
      | .error c => .error c
      | .ok t' => loadLines (i + pre.length) post t' := by
  induction pre generalizing i t with
  | nil => rfl
  | cons l pre ih =>
    simp only [List.cons_append, loadLines]
    cases loadLine i l t with
    | error c => rfl
    | ok t' => simp only [ih]; rw [List.length_cons, Nat.add_comm pre.length 1, ← Nat.add_assoc]

/-- Loading one more line, for inductions from the first line on. -/
theorem loadLines_snoc {i : Nat} {pre : List Text} {line : Text} {t t' : Tables}
    (h : loadLines i (pre ++ [line]) t = .ok t') :
    ∃ t1, loadLines i pre t = .ok t1 ∧ loadLine (i + pre.length) line t1 = .ok t' := by
  rw [loadLines_append] at h
  split at h
  · cases h
  · rename_i t1 h1
    refine ⟨t1, h1, ?_⟩
    unfold loadLines at h
    split at h
    · cases h
    · rename_i t2 h2
      rw [h2, ← h]; rfl

/-- The faults the loader can raise (60_exceptions.md R125). -/
theorem load_error {src : Source} {c : Cause} (h : load src = .error c) :
    ∃ i, c = .dupLabel i ∨ c = .labelOnlyLine i := by
  cases src with
  | unreadable => cases h
  | text b =>
    change loadLines 0 (linesOf b) Tables.empty = .error c at h
    generalize (0 : Nat) = i, linesOf b = ls, Tables.empty = t at h
    induction ls generalizing i t with
    | nil => cases h
    | cons l ls ih =>
      unfold loadLines at h
      split at h
      · rename_i hc
        cases h
        unfold loadLine addLabel at hc
        split at hc
        · rename_i h2
          split at h2
          · cases h2
          · split at h2
            · cases hc; cases h2; exact ⟨i, .inl rfl⟩
            · cases h2
        · split at hc
          · cases hc; exact ⟨i, .inr rfl⟩
          · cases hc
      · exact ih _ _ h

theorem load_loaded {src : Source} {t : Tables} (h : load src = .ok t) : t.Loaded t.prog.length := by
  cases src with
  | unreadable =>
    obtain rfl : Tables.empty = t := by simpa [load] using h
    exact Tables.empty_loaded
  | text b =>
    have := loadLines_loaded h Tables.empty_loaded
    rwa [this.length]

/-- Reset leaves the storage spaces in canonical form, whatever the source. -/
theorem Memory.resetWith_wf (src : Source) : Memory.wf (State.resetWith src) = true := by
  unfold State.resetWith
  split
  · exact Memory.reset_wf
  · rename_i t h
    have := load_loaded h
    rw [Memory.wf_iff]
    exact ⟨this.labels, this.indices, this.symBound, this.keys, this.ctrBound⟩

/-! ### Placing a line -/

theorem insertCounter_keys (i : Nat) (l : List (Nat × Int)) (h : (l.map (·.1)).Pairwise (· < ·)) :
    ((insertCounter i l).map (·.1)).Pairwise (· < ·) ∧
      ∀ e ∈ insertCounter i l, e.1 = i ∨ e ∈ l := by
  induction l with
  | nil => simp [insertCounter]
  | cons e l ih =>
    rw [List.map_cons, List.pairwise_cons] at h
    obtain ⟨ih1, ih2⟩ := ih h.2
    unfold insertCounter
    split_ifs with h1 h2
    · refine ⟨?_, fun x hx => (List.mem_cons.1 hx).imp (congrArg Prod.fst) id⟩
      simp only [List.map_cons, List.pairwise_cons]
      exact ⟨fun a ha => by
        rcases List.mem_cons.1 ha with rfl | ha
        · exact h1
        · exact h1.trans (h.1 a ha), h.1, h.2⟩
    · subst h2
      refine ⟨?_, fun x hx => ?_⟩
      · simp only [List.map_cons, List.pairwise_cons]
        exact h
      · rcases List.mem_cons.1 hx with rfl | hx
        · exact .inl rfl
        · exact .inr (List.mem_cons_of_mem _ hx)
    · refine ⟨?_, fun x hx => ?_⟩
      · rw [List.map_cons, List.pairwise_cons]
        refine ⟨fun a ha => ?_, ih1⟩
        obtain ⟨x, hx, rfl⟩ := List.mem_map.1 ha
        rcases ih2 x hx with hx | hx
        · omega
        · exact h.1 _ (List.mem_map_of_mem hx)
      · rcases List.mem_cons.1 hx with rfl | hx
        · exact .inr List.mem_cons_self
        · exact (ih2 x hx).imp_right (List.mem_cons_of_mem _)

theorem mem_insertLabel (l : Text) (i : Nat) (t : List (Text × Nat)) :
    ∀ e ∈ insertLabel l i t, e = (l, i) ∨ e ∈ t := by
  induction t with
  | nil => simp [insertLabel]
  | cons e t ih =>
    unfold insertLabel
    split_ifs
    · simp
    · intro x hx
      rcases List.mem_cons.1 hx with rfl | hx
      · exact .inr List.mem_cons_self
      · exact (ih x hx).imp_right (List.mem_cons_of_mem _)

theorem insertLabel_canonical {l : Text} {i : Nat} {t : List (Text × Nat)}
    (h1 : (t.map (·.1)).Nodup) (h2 : (t.map (·.2)).Pairwise (· < ·))
    (hl : ∀ e ∈ t, e.1 ≠ l) (hi : ∀ e ∈ t, e.2 ≠ i) :
    ((insertLabel l i t).map (·.1)).Nodup ∧ ((insertLabel l i t).map (·.2)).Pairwise (· < ·) := by
  induction t with
  | nil => simp [insertLabel]
  | cons e t ih =>
    rw [List.map_cons, List.nodup_cons] at h1
    rw [List.map_cons, List.pairwise_cons] at h2
    have hl' := List.forall_mem_cons.1 hl
    have hi' := List.forall_mem_cons.1 hi
    obtain ⟨ih1, ih2⟩ := ih h1.2 h2.2 hl'.2 hi'.2
    unfold insertLabel
    split_ifs with h
    · constructor
      · rw [List.map_cons, List.nodup_cons, List.map_cons, List.nodup_cons]
        refine ⟨fun hm => ?_, h1⟩
        obtain ⟨x, hx, hxe⟩ := List.mem_map.1 (by rw [← List.map_cons] at hm; exact hm)
        exact hl x hx hxe
      · simp only [List.map_cons, List.pairwise_cons]
        exact ⟨fun a ha => by
          rcases List.mem_cons.1 ha with rfl | ha
          · exact h
          · exact h.trans (h2.1 a ha), h2.1, h2.2⟩
    · constructor
      · rw [List.map_cons, List.nodup_cons]
        refine ⟨fun hm => ?_, ih1⟩
        obtain ⟨x, hx, hxe⟩ := List.mem_map.1 hm
        rcases mem_insertLabel l i t x hx with rfl | hx
        · exact hl'.1 hxe.symm
        · exact h1.1 (hxe ▸ List.mem_map_of_mem hx)
      · rw [List.map_cons, List.pairwise_cons]
        refine ⟨fun a ha => ?_, ih2⟩
        obtain ⟨x, hx, rfl⟩ := List.mem_map.1 ha
        rcases mem_insertLabel l i t x hx with rfl | hx
        · have := hi'.1
          dsimp only at *
          omega
        · exact h2.1 _ (List.mem_map_of_mem hx)

/-- Placing a line keeps the storage spaces in canonical form. -/
theorem Memory.placeLine_wf {s : State} (h : Memory.wf s = true) (line : Text) :
    Memory.wf (placeLine s line) = true := by
  unfold placeLine
  split
  · exact Memory.wf_congr h rfl rfl rfl
  · rename_i raw _
    rw [Memory.wf_iff] at h ⊢
    obtain ⟨h1, h2, h3, h4, h5⟩ := h
    have hlen : s.count ≤ (placedProg s raw.finalStrip).length ∧
        s.fetchPos < (placedProg s raw.finalStrip).length := by
      simp only [placedProg, padProg, placedLength, List.length_set, List.length_append,
        List.length_replicate, State.count]
      omega
    have hsym : ((placedSym s raw.label).map (·.1)).Nodup ∧
        ((placedSym s raw.label).map (·.2)).Pairwise (· < ·) ∧
        ∀ e ∈ placedSym s raw.label, e.2 = s.fetchPos ∨ e ∈ s.sym := by
      have hsub : ∀ p : Text × Nat → Bool, ((s.sym.filter p).map (·.1)).Nodup ∧
          ((s.sym.filter p).map (·.2)).Pairwise (· < ·) := fun p =>
        ⟨h1.sublist (List.filter_sublist.map _), h2.sublist (List.filter_sublist.map _)⟩
      unfold placedSym
      split
      · exact ⟨(hsub _).1, (hsub _).2, fun e he => .inr (List.mem_of_mem_filter he)⟩
      · refine ⟨(insertLabel_canonical (hsub _).1 (hsub _).2 ?_ ?_).1,
          (insertLabel_canonical (hsub _).1 (hsub _).2 ?_ ?_).2, ?_⟩
        · intro e he; simpa using (by simpa using (List.mem_filter.1 he).2 : _ ∧ _).2
        · intro e he; simpa using (by simpa using (List.mem_filter.1 he).2 : _ ∧ _).1
        · intro e he; simpa using (by simpa using (List.mem_filter.1 he).2 : _ ∧ _).2
        · intro e he; simpa using (by simpa using (List.mem_filter.1 he).2 : _ ∧ _).1
        · intro e he
          rcases mem_insertLabel _ _ _ e he with rfl | he
          · exact .inl rfl
          · exact .inr (List.mem_of_mem_filter he)
    have hctr : ((placedCtr s raw).map (·.1)).Pairwise (· < ·) ∧
        ∀ e ∈ placedCtr s raw, e.1 = s.fetchPos ∨ e ∈ s.ctr := by
      unfold placedCtr
      split
      · exact insertCounter_keys _ _ h4
      · exact ⟨h4.sublist (List.filter_sublist.map _), fun e he => .inr (List.mem_of_mem_filter he)⟩
    refine ⟨hsym.1, hsym.2.1, fun e he => ?_, hctr.1, fun e he => ?_⟩
    · rcases hsym.2.2 e he with he | he
      · exact he ▸ hlen.2
      · exact lt_of_lt_of_le (h3 e he) hlen.1
    · rcases hctr.2 e he with he | he
      · exact he ▸ hlen.2
      · exact lt_of_lt_of_le (h5 e he) hlen.1

end Sys2Proof.Machine
end

