-- ==== Sys2Proof/Laws/Text.lean ====
section
/-!
SUPPORT. What the text operations do, each said once: cutting at a separator, the final strip, the occurrence
test, the class of a mnemonic.
-/

namespace Sys2Proof

/-! ### Cutting -/

theorem cutAt_no_sep {c : Byte} {t : Text} (h : c ∉ t) : cutAt c t = (t, []) := by
  induction t with
  | nil => rfl
  | cons b t ih =>
    simp only [List.mem_cons, not_or] at h
    simp [cutAt, ih h.2, Ne.symm h.1]

theorem cutAt_append_sep {c : Byte} {t u : Text} (h : c ∉ t) :
    cutAt c (t ++ c :: u) = (t, (cutAt c u).1 :: (cutAt c u).2) := by
  induction t with
  | nil => simp [cutAt]
  | cons b t ih =>
    simp only [List.mem_cons, not_or] at h
    simp [cutAt, ih h.2, Ne.symm h.1]

theorem sep_not_mem_cutAt_fst (c : Byte) (t : Text) : c ∉ (cutAt c t).1 := by
  induction t with
  | nil => simp [cutAt]
  | cons b t ih =>
    by_cases hb : b = c
    · simp [cutAt, hb]
    · simp [cutAt, hb, ih, Ne.symm hb]

theorem sep_not_mem_cutAt_snd (c : Byte) (t : Text) : ∀ p ∈ (cutAt c t).2, c ∉ p := by
  induction t with
  | nil => simp [cutAt]
  | cons b t ih =>
    by_cases hb : b = c
    · simpa [cutAt, hb] using ⟨sep_not_mem_cutAt_fst c t, ih⟩
    · simpa [cutAt, hb] using ih

theorem cutAt_subset (c : Byte) (t : Text) :
    (∀ b ∈ (cutAt c t).1, b ∈ t) ∧ ∀ p ∈ (cutAt c t).2, ∀ b ∈ p, b ∈ t := by
  induction t with
  | nil => simp [cutAt]
  | cons a t ih =>
    by_cases ha : a = c
    · simp only [cutAt, ha, if_true]
      exact ⟨by simp, by
        rintro p hp b hb
        rcases List.mem_cons.mp hp with rfl | hp
        · exact List.mem_cons_of_mem _ (ih.1 b hb)
        · exact List.mem_cons_of_mem _ (ih.2 p hp b hb)⟩
    · simp only [cutAt, ha, if_false]
      exact ⟨by
        intro b hb
        rcases List.mem_cons.mp hb with rfl | hb
        · exact List.mem_cons_self
        · exact List.mem_cons_of_mem _ (ih.1 b hb),
        fun p hp b hb => List.mem_cons_of_mem _ (ih.2 p hp b hb)⟩

theorem cutAt_snd_nil_iff (c : Byte) (t : Text) : (cutAt c t).2 = [] ↔ c ∉ t := by
  induction t with
  | nil => simp [cutAt]
  | cons b t ih =>
    by_cases hb : b = c
    · simp [cutAt, hb]
    · simp [cutAt, hb, ih, Ne.symm hb]

/-- The pieces, each after the first behind its separator, give back the text. -/
theorem cutAt_join (c : Byte) (t : Text) : (cutAt c t).1 ++ (cutAt c t).2.flatMap (fun p => c :: p) = t := by
  induction t with
  | nil => rfl
  | cons b t ih =>
    by_cases hb : b = c
    · simp [cutAt, hb, ih]
    · simp [cutAt, hb, ih]

/-! ### Labels -/

theorem hasByte_eq_true_iff (c : Byte) (t : Text) : hasByte c t = true ↔ c ∈ t := by
  simp [hasByte, List.any_eq_true]

theorem hasByte_eq_false_iff (c : Byte) (t : Text) : hasByte c t = false ↔ c ∉ t := by
  rw [← hasByte_eq_true_iff, Bool.not_eq_true]

theorem beforeByte_append (c : Byte) {t : Text} (u : Text) (h : c ∉ t) :
    beforeByte c (t ++ c :: u) = t := by
  induction t with
  | nil => simp [beforeByte]
  | cons b t ih =>
    simp only [List.mem_cons, not_or] at h
    have := ih h.2
    simp only [beforeByte] at this ⊢
    simp [Ne.symm h.1, this]

theorem not_mem_beforeByte (c : Byte) (t : Text) : c ∉ beforeByte c t := by
  induction t with
  | nil => simp [beforeByte]
  | cons b t ih =>
    simp only [beforeByte] at ih ⊢
    by_cases hb : b = c
    · simp [hb]
    · simp [hb, ih, Ne.symm hb]

theorem beforeByte_subset (c : Byte) (t : Text) : ∀ b ∈ beforeByte c t, b ∈ t :=
  fun _ hb => List.takeWhile_subset _ hb

/-! ### Well-formedness checks -/

theorem tokenOk_iff (t : Text) : tokenOk t = true ↔ Config.tokenSep ∉ t ∧ Config.lineSep ∉ t := by
  simp only [tokenOk, List.all_eq_true, Bool.and_eq_true, bne_iff_ne]
  exact ⟨fun h => ⟨fun hm => (h _ hm).1 rfl, fun hm => (h _ hm).2 rfl⟩,
    fun h b hb => ⟨fun e => h.1 (e ▸ hb), fun e => h.2 (e ▸ hb)⟩⟩

theorem termFree_iff (t : Text) : termFree t = true ↔ Config.labelTerm ∉ t := by
  simp only [termFree, List.all_eq_true, bne_iff_ne]
  exact ⟨fun h hm => h _ hm rfl, fun h b hb e => h (e ▸ hb)⟩

/-! ### Strips -/

theorem dropLastByte_append (t : Text) (c : Byte) : dropLastByte (t ++ [c]) = t := by
  simp [dropLastByte]

theorem dropLastByte_subset (t : Text) : ∀ b ∈ dropLastByte t, b ∈ t :=
  fun _ hb => List.dropLast_subset _ hb

theorem stripSeparator_append (t : Text) : stripSeparator (t ++ [Config.operandSep]) = t := by
  simp [stripSeparator, endsWithByte, dropLastByte_append]

theorem stripSeparator_other {t : Text} {c : Byte} (h : c ≠ Config.operandSep) :
    stripSeparator (t ++ [c]) = t ++ [c] := by
  simp [stripSeparator, endsWithByte, h]

theorem stripSeparator_subset (t : Text) : ∀ b ∈ stripSeparator t, b ∈ t := by
  intro b hb
  unfold stripSeparator at hb
  split at hb
  · exact dropLastByte_subset t b hb
  · exact hb

theorem mapLast_append {α : Type} (f : α → α) (l : List α) (a : α) :
    mapLast f (l ++ [a]) = l ++ [f a] := by
  induction l with
  | nil => rfl
  | cons b l ih => cases l <;> simp_all [mapLast]

theorem mem_mapLast {α : Type} (f : α → α) (l : List α) :
    ∀ a ∈ mapLast f l, a ∈ l ∨ ∃ b ∈ l, a = f b := by
  induction l using mapLast.induct with
  | case1 => simp [mapLast]
  | case2 b => simp [mapLast]
  | case3 b c l ih =>
    intro a ha
    simp only [mapLast, List.mem_cons] at ha
    rcases ha with rfl | ha
    · simp
    · rcases ih a ha with h | ⟨x, hx, rfl⟩
      · exact .inl (List.mem_cons_of_mem _ h)
      · exact .inr ⟨x, List.mem_cons_of_mem _ hx, rfl⟩

theorem length_mapLast {α : Type} (f : α → α) (l : List α) : (mapLast f l).length = l.length := by
  induction l using mapLast.induct with
  | case1 => rfl
  | case2 b => rfl
  | case3 b c l ih => simp [mapLast, ih]

/-! ### Occurrence -/

theorem containsText_iff (t u : Text) : containsText t u = true ↔ u <:+: t := by
  induction t with
  | nil => simp [containsText, List.infix_nil]
  | cons b t ih => simp [containsText, ih, List.infix_cons_iff]

theorem containsText_self (t : Text) : containsText t t = true := (containsText_iff t t).2 (List.infix_refl t)

/-! ### Classes -/

theorem classOf_generic_iff (m : Text) : classOf m = .generic ↔
    m ≠ Config.mnLoad ∧ m ≠ Config.mnStore ∧ m ≠ Config.mnJump ∧ m ≠ Config.mnBr1 ∧ m ≠ Config.mnBr2 := by
  unfold classOf; split_ifs <;> simp_all

theorem classOf_load_iff (m : Text) : classOf m = .load ↔ m = Config.mnLoad := by
  unfold classOf; split_ifs <;> simp_all

theorem classOf_store_iff (m : Text) : classOf m = .store ↔ m = Config.mnStore := by
  unfold classOf; split_ifs <;> simp_all (decide := true)

theorem classOf_jump_iff (m : Text) : classOf m = .jump ↔ m = Config.mnJump := by
  unfold classOf; split_ifs <;> simp_all (decide := true)

theorem classOf_br1_iff (m : Text) : classOf m = .br1 ↔ m = Config.mnBr1 := by
  unfold classOf; split_ifs <;> simp_all (decide := true)

theorem classOf_br2_iff (m : Text) : classOf m = .br2 ↔ m = Config.mnBr2 := by
  unfold classOf; split_ifs <;> simp_all (decide := true)

/-- The class of each distinguished mnemonic. -/
theorem classOf_mnemonics : classOf Config.mnLoad = .load ∧ classOf Config.mnStore = .store ∧
    classOf Config.mnJump = .jump ∧ classOf Config.mnBr1 = .br1 ∧ classOf Config.mnBr2 = .br2 := by
  decide

theorem isBranchName_iff (m : Text) : isBranchName m = true ↔ classOf m = .br1 ∨ classOf m = .br2 := by
  simp [isBranchName, classOf_br1_iff, classOf_br2_iff]

theorem record_instr_record (r : Record) : r.instr.record = r := by
  unfold Record.instr
  cases h : classOf r.mnemonic
  · rfl
  · simp [Instr.record, ← (classOf_load_iff _).1 h]
  · simp [Instr.record, ← (classOf_store_iff _).1 h]
  · simp [Instr.record, ← (classOf_jump_iff _).1 h]
  · simp [Instr.record, ← (classOf_br1_iff _).1 h]
  · simp [Instr.record, ← (classOf_br2_iff _).1 h]

/-! ### The record of a line -/

/-- Everything `rawRecord` can do when it succeeds. -/
theorem rawRecord_ok {line : Text} {raw : Record} (h : rawRecord line = .ok raw) :
    raw.label = lineLabel line ∧
      ((lineLabel line = none ∧ raw.mnemonic = (cutAt Config.tokenSep line).1 ∧
          raw.operands = (cutAt Config.tokenSep line).2.map stripSeparator) ∨
        ∃ l rest, lineLabel line = some l ∧ (cutAt Config.tokenSep line).2 = raw.mnemonic :: rest ∧
          raw.operands = rest.map stripSeparator) := by
  unfold rawRecord at h
  simp only at h
  split at h
  · rename_i hl
    obtain rfl := by simpa using h
    exact ⟨hl.symm, .inl ⟨hl, rfl, rfl⟩⟩
  · rename_i l hl
    split at h
    · cases h
    · rename_i m rest hp
      obtain rfl := by simpa using h
      exact ⟨hl.symm, .inr ⟨l, rest, hl, hp, rfl⟩⟩

/-- Where operands are left after the final strip, it did not touch the mnemonic. -/
theorem finalStrip_mnemonic {raw : Record} (h : raw.finalStrip.operands ≠ []) :
    raw.finalStrip.mnemonic = raw.mnemonic := by
  unfold Record.finalStrip at h ⊢
  split
  · rename_i h0; simp [h0] at h
  · rfl

end Sys2Proof
end

