-- ==== Sys2Proof/Laws/Ops.lean ====
section
/-!
SUPPORT. What the shared operations can do, each said once: the execute unit, the data-hazard scan, the control
check and resolution of each class, the fetch unit, and from them `exec_cases`, the one inversion lemma of a cycle,
with `Raises`, the one list of the faults a cycle can raise. Later proofs cite these and unfold nothing.
-/

namespace Sys2Proof.Machine

/-! ### Every meaning is a cycle with the fetch unit of its class -/

/-- The control-hazard check of an instruction (41_fetch_unit.md R81 to R84). -/
def controlOf (i : Instr) : State → Except Cause Bool :=
  match i with
  | .generic _ _ _ => noControl
  | .lw _ _ => noControl
  | .sw _ _ => noControl
  | .jal _ _ => jumpControl
  | .bge _ _ => branchControl br1Stalls i.record
  | .ble _ _ => branchControl br2Stalls i.record

/-- The next-fetch resolution of an instruction (41_fetch_unit.md R85). -/
def resolveOf (i : Instr) : State → Except Cause State :=
  match i with
  | .generic _ _ _ => advance
  | .lw _ _ => advance
  | .sw _ _ => advance
  | .jal _ _ => jumpResolve i.record
  | .bge _ _ => branchResolve br1Taken br1Next i.record
  | .ble _ _ => branchResolve br2Taken br2Next i.record

theorem exec_eq_cycle (i : Instr) (s : State) :
    exec i s = cycle (fetchUnit i.record (controlOf i) (resolveOf i)) s := by
  cases i <;> rfl

/-- A cycle as a computation that may fault. -/
def cycleResult (fetch : State → Except Cause State) (s : State) : Except Cause State :=
  match executeUnit (writeBackUnit s) with
  | .error c => .error c
  | .ok s2 =>
    match fetch s2 with
    | .error c => .error c
    | .ok s3 => .ok s3.countCycle

theorem cycle_eq (fetch : State → Except Cause State) (s : State) :
    cycle fetch s =
      match cycleResult fetch s with
      | .error c => .next (s.raise c)
      | .ok t => .next t := by
  unfold cycle cycleResult
  cases executeUnit (writeBackUnit s) with
  | error c => rfl
  | ok s2 =>
    dsimp only
    cases fetch s2 <;> rfl

theorem exec_eq_of_result {i : Instr} {s t : State}
    (h : cycleResult (fetchUnit i.record (controlOf i) (resolveOf i)) s = .ok t) : exec i s = .next t := by
  rw [exec_eq_cycle, cycle_eq, h]

theorem exec_eq_of_fault {i : Instr} {s : State} {c : Cause}
    (h : cycleResult (fetchUnit i.record (controlOf i) (resolveOf i)) s = .error c) :
    exec i s = .next (s.raise c) := by
  rw [exec_eq_cycle, cycle_eq, h]

/-! ### Write-back and execute units -/

theorem fetchStatusAfterWriteBack_free_iff (s : State) :
    fetchStatusAfterWriteBack s = .free ↔ FetchFreed s := by
  unfold fetchStatusAfterWriteBack releases FetchFreed
  cases h : s.fetchStatus <;> by_cases h' : s.writebackPos = s.execPos <;> simp [h']

theorem fetchStatusAfterWriteBack_stalled {s : State} (h : ¬FetchFreed s) :
    fetchStatusAfterWriteBack s = .stalled := by
  cases h' : fetchStatusAfterWriteBack s
  · exact absurd ((fetchStatusAfterWriteBack_free_iff s).1 h') h
  · rfl

/-- The state the fetch unit sees when the execute cursor advances. -/
def State.seen (s : State) : State :=
  { s with
    execPos := s.fetchPos, writebackPos := s.execPos, fetchStatus := fetchStatusAfterWriteBack s
    executeStatus := .free }

/-- The state the fetch unit sees in a latency cycle. -/
def State.seenLatency (s : State) : State :=
  { s with
    writebackPos := s.execPos, fetchStatus := fetchStatusAfterWriteBack s, executeStatus := .stalled }

theorem executeUnit_advances {s : State} (h : ExecuteAdvances s) :
    executeUnit (writeBackUnit s) = .ok s.seen := by
  unfold executeUnit State.seen
  rcases h with h | ⟨r, hr, hl⟩
  · simp [h]
  · cases he : s.executeStatus
    · simp [he, readProg, hr, hl]
    · simp [he]

theorem executeUnit_stalls {s : State} (h : ExecuteStalls s) :
    executeUnit (writeBackUnit s) = .ok s.seenLatency := by
  obtain ⟨he, r, hr, hl⟩ := h
  unfold executeUnit State.seenLatency
  simp [he, readProg, hr, hl]

/-- Everything the first two units can do. -/
theorem executeUnit_cases (s : State) :
    (ExecuteAdvances s ∧ executeUnit (writeBackUnit s) = .ok s.seen) ∨
    (ExecuteStalls s ∧ executeUnit (writeBackUnit s) = .ok s.seenLatency) ∨
    (s.executeStatus = .free ∧ s.prog[s.execPos]? = none ∧
      executeUnit (writeBackUnit s) = .error .invariant) := by
  cases he : s.executeStatus
  · cases hr : s.prog[s.execPos]? with
    | none => exact .inr (.inr ⟨rfl, rfl, by simp [executeUnit, he, readProg, hr]⟩)
    | some r =>
      cases hl : needsLatency r
      · have h : ExecuteAdvances s := .inr ⟨r, hr, hl⟩
        exact .inl ⟨h, executeUnit_advances h⟩
      · have h : ExecuteStalls s := ⟨he, r, hr, hl⟩
        exact .inr (.inl ⟨h, executeUnit_stalls h⟩)
  · have h : ExecuteAdvances s := .inl he
    exact .inl ⟨h, executeUnit_advances h⟩

/-! ### The data-hazard scan -/

theorem scanFrom_congr {s t : State} (h : s.prog = t.prog) (r : Record) (i n : Nat) :
    scanFrom s r i n = scanFrom t r i n := by
  induction n generalizing i with
  | zero => rfl
  | succ n ih => simp [scanFrom, readProg, h, ih]

theorem scanFrom_step_passes {s : State} {r : Record} {i n : Nat} (h : ScanPassesAt s r i) :
    scanFrom s r i (n + 1) = scanFrom s r (i + 1) n := by
  obtain ⟨ri, hi, hb | ⟨d, hd, hz⟩⟩ := h
  · simp [scanFrom, readProg, hi, hb]
  · simp [scanFrom, readProg, hi, needleOf, hd, hz]

theorem scanFrom_passes_up_to {s : State} {r : Record} {i k n : Nat} (hik : i ≤ k) (hk : k ≤ i + n)
    (h : ∀ j, i ≤ j → j < k → ScanPassesAt s r j) : scanFrom s r i n = scanFrom s r k (i + n - k) := by
  induction n generalizing i with
  | zero =>
    obtain rfl : i = k := by omega
    simp
  | succ n ih =>
    rcases Nat.eq_or_lt_of_le hik with rfl | hlt
    · congr 1; omega
    · rw [scanFrom_step_passes (h i le_rfl hlt), ih hlt (by omega) fun j h1 h2 => h j (by omega) h2]
      congr 1; omega

/-- The scan as seen after the first two units. -/
theorem dataHazard_seen (s : State) (r : Record) :
    dataHazard s.seen r = scanFrom s r s.execPos (s.fetchPos - s.execPos) := by
  have h : s.seen.prog = s.prog := rfl
  exact scanFrom_congr h r _ _

theorem dataHazard_passes {s : State} {r : Record} (h : ScanPasses s r) :
    dataHazard s.seen r = .ok false := by
  rw [dataHazard_seen]
  rcases Nat.le_total s.fetchPos s.execPos with hle | hle
  · rw [Nat.sub_eq_zero_of_le hle]; rfl
  · rw [scanFrom_passes_up_to (k := s.fetchPos) hle (by omega) h]
    have : s.execPos + (s.fetchPos - s.execPos) - s.fetchPos = 0 := by omega
    rw [this]; rfl

theorem scan_reaches {s : State} {r : Record} {k : Nat} (h1 : s.execPos ≤ k) (h2 : k < s.fetchPos)
    (h : ∀ j, s.execPos ≤ j → j < k → ScanPassesAt s r j) :
    ∃ n, dataHazard s.seen r = scanFrom s r k (n + 1) := by
  refine ⟨s.fetchPos - k - 1, ?_⟩
  rw [dataHazard_seen, scanFrom_passes_up_to (k := k) h1 (by omega) h]
  congr 1; omega

theorem dataHazard_stalls {s : State} {r : Record} {k : Nat} (h : ScanStallsAt s r k) :
    dataHazard s.seen r = .ok true := by
  obtain ⟨h1, h2, hp, ri, d, hi, hb, hd, hz⟩ := h
  obtain ⟨n, hn⟩ := scan_reaches h1 h2 hp
  rw [hn]
  simp [scanFrom, readProg, hi, hb, needleOf, hd, hz]

theorem dataHazard_short {s : State} {r : Record} {k : Nat} (h : ScanShortAt s r k) :
    dataHazard s.seen r = .error (.shortRecord k) := by
  obtain ⟨h1, h2, hp, ri, hi, hb, hd⟩ := h
  obtain ⟨n, hn⟩ := scan_reaches h1 h2 hp
  rw [hn]
  simp [scanFrom, readProg, hi, hb, needleOf, hd, Config.shortRecord]

/-- Everything the scan can do. -/
theorem dataHazard_cases (s : State) (r : Record) :
    (ScanPasses s r ∧ dataHazard s.seen r = .ok false) ∨
    (∃ k, ScanStallsAt s r k ∧ dataHazard s.seen r = .ok true) ∨
    (∃ k, ScanShortAt s r k ∧ dataHazard s.seen r = .error (.shortRecord k)) ∨
    (∃ k, s.execPos ≤ k ∧ k < s.fetchPos ∧ s.prog[k]? = none ∧
      dataHazard s.seen r = .error .invariant) := by
  by_cases hall : ScanPasses s r
  · exact .inl ⟨hall, dataHazard_passes hall⟩
  · have hex : ∃ k, s.execPos ≤ k ∧ k < s.fetchPos ∧ ¬ScanPassesAt s r k := by
      simpa [ScanPasses] using hall
    classical
    obtain ⟨h1, h2, hno⟩ := Nat.find_spec hex
    have hp : ∀ j, s.execPos ≤ j → j < Nat.find hex → ScanPassesAt s r j := by
      intro j hj hlt
      by_contra hc
      exact Nat.find_min hex hlt ⟨hj, by omega, hc⟩
    generalize Nat.find hex = k at *
    cases hi : s.prog[k]? with
    | none =>
      refine .inr (.inr (.inr ⟨k, h1, h2, hi, ?_⟩))
      obtain ⟨n, hn⟩ := scan_reaches h1 h2 hp
      rw [hn]; simp [scanFrom, readProg, hi]
    | some ri =>
      have hb : isCountedBranch ri = false := by
        cases hb : isCountedBranch ri
        · rfl
        · exact absurd ⟨ri, hi, .inl hb⟩ hno
      cases hd : ri.operands[0]? with
      | none =>
        have hshort : ScanShortAt s r k := ⟨h1, h2, hp, ri, hi, hb, by simpa using hd⟩
        exact .inr (.inr (.inl ⟨k, hshort, dataHazard_short hshort⟩))
      | some d =>
        have hz : hazardWith r d = true := by
          cases hz : hazardWith r d
          · exact absurd ⟨ri, hi, .inr ⟨d, hd, hz⟩⟩ hno
          · rfl
        have hst : ScanStallsAt s r k := ⟨h1, h2, hp, ri, d, hi, hb, hd, hz⟩
        exact .inr (.inl ⟨k, hst, dataHazard_stalls hst⟩)

/-! ### The fetch unit on the state the first two units leave -/

/-- How `fetchUnit` ends once it has reached its control check. -/
theorem fetchUnit_seen {s : State} {r : Record} {control : State → Except Cause Bool}
    {resolve : State → Except Cause State} (hz : dataHazard s.seen r = .ok false) :
    fetchUnit r control resolve s.seen =
      match control s.seen with
      | .error c => .error c
      | .ok true => .ok s.seen.stallFetch
      | .ok false =>
        if FetchFreed s ∧ s.fetchPos ≠ s.last then resolve s.seen else .ok s.seen := by
  unfold fetchUnit
  have he : s.seen.executeStatus = .free := rfl
  rw [he]
  simp only [hz]
  cases hc : control s.seen with
  | error c => rfl
  | ok b =>
    cases b
    · have hf : (s.seen.fetchStatus = Status.free) = FetchFreed s :=
        propext (fetchStatusAfterWriteBack_free_iff s)
      have hp : s.seen.fetchPos = s.fetchPos := rfl
      have hl : s.seen.last = s.last := rfl
      simp only [Bool.false_eq_true, if_false, hp, hl]
      by_cases hm : FetchFreed s ∧ s.fetchPos ≠ s.last
      · rw [if_pos hm, if_pos ⟨hf.mpr hm.1, hm.2⟩]
      · rw [if_neg hm, if_neg fun h => hm ⟨hf.mp h.1, h.2⟩]
    · simp

theorem seen_stall (s : State) : s.seen.stallFetch.countCycle = s.afterStay .stalled := rfl

theorem seen_free {s : State} (h : FetchFreed s) : s.seen.countCycle = s.afterStay .free := by
  rw [← (fetchStatusAfterWriteBack_free_iff s).2 h]; rfl

theorem seen_held {s : State} (h : ¬FetchFreed s) : s.seen.countCycle = s.afterStay .stalled := by
  rw [← fetchStatusAfterWriteBack_stalled h]; rfl

theorem seen_move {s : State} (h : FetchFreed s) (dst : Nat) :
    (s.seen.goto dst).countCycle = s.afterMove dst s.ctr := by
  unfold State.seen
  rw [(fetchStatusAfterWriteBack_free_iff s).2 h]; rfl

theorem seen_move_ctr {s : State} (h : FetchFreed s) (dst : Nat) (i : Nat) (v : Int) :
    ((s.seen.setCtr i v).goto dst).countCycle = s.afterMove dst (putCtr i v s.ctr) := by
  unfold State.seen
  rw [(fetchStatusAfterWriteBack_free_iff s).2 h]; rfl

/-! ### Cycles, case by case -/

theorem cycleResult_latency {s : State} (h : ExecuteStalls s) (i : Instr) :
    cycleResult (fetchUnit i.record (controlOf i) (resolveOf i)) s =
      .ok s.seenLatency.stallFetch.countCycle := by
  rw [cycleResult, executeUnit_stalls h]; rfl

theorem cycleResult_hazard {s : State} {i : Instr} {k : Nat} (he : ExecuteAdvances s)
    (h : ScanStallsAt s i.record k) :
    cycleResult (fetchUnit i.record (controlOf i) (resolveOf i)) s = .ok (s.afterStay .stalled) := by
  rw [cycleResult, executeUnit_advances he]
  have he' : s.seen.executeStatus = .free := rfl
  simp [fetchUnit, dataHazard_stalls h, he', seen_stall]

theorem cycleResult_short {s : State} {i : Instr} {k : Nat} (he : ExecuteAdvances s)
    (h : ScanShortAt s i.record k) :
    cycleResult (fetchUnit i.record (controlOf i) (resolveOf i)) s = .error (.shortRecord k) := by
  rw [cycleResult, executeUnit_advances he]
  have he' : s.seen.executeStatus = .free := rfl
  simp [fetchUnit, dataHazard_short h, he']

/-- A cycle that reaches its control check. -/
theorem cycleResult_control {s : State} {i : Instr} (h : ReachesControl s i.record) :
    cycleResult (fetchUnit i.record (controlOf i) (resolveOf i)) s =
      match controlOf i s.seen with
      | .error c => .error c
      | .ok true => .ok (s.afterStay .stalled)
      | .ok false =>
        if FetchFreed s ∧ s.fetchPos ≠ s.last then
          match resolveOf i s.seen with
          | .error c => .error c
          | .ok t => .ok t.countCycle
        else .ok (s.afterStay (fetchStatusAfterWriteBack s)) := by
  rw [cycleResult, executeUnit_advances h.1]
  simp only [fetchUnit_seen (dataHazard_passes h.2)]
  cases hc : controlOf i s.seen with
  | error c => rfl
  | ok b =>
    cases b
    · by_cases hm : FetchFreed s ∧ s.fetchPos ≠ s.last
      · rw [if_pos hm]; simp only [if_pos hm]
      · rw [if_neg hm]; simp only [if_neg hm]; rfl
    · rfl

/-! ### Control checks -/

theorem jumpControl_seen {s : State} {rw : Record} (h : s.prog[s.execPos]? = some rw) :
    jumpControl s.seen = .ok (rw.mnemonic != Config.mnJump) := by
  simp [jumpControl, writebackMnemonic, readProg, State.seen, h, jumpStalls]

theorem branchControl_seen {s : State} {r rw : Record} {stalls : Int → Int → Text → Bool} {t c : Int}
    (h : BranchReads s r.operands t c) (hw : s.prog[s.execPos]? = some rw) :
    branchControl stalls r s.seen = .ok (stalls c t rw.mnemonic) := by
  obtain ⟨⟨u, hu, ht⟩, hc⟩ := h
  simp [branchControl, thresholdOf, hu, ht, readCtr, State.seen, hc, writebackMnemonic, readProg, hw]

/-- The conditions of Safety.lean say when the control check lets an instruction pass. -/
theorem controlOf_passes {i : Instr} {s : State} (h : ControlPasses i s) :
    controlOf i s.seen = .ok false := by
  cases i with
  | generic => rfl
  | lw => rfl
  | sw => rfl
  | jal l ops =>
    obtain ⟨r, hr, hm⟩ := h
    simp [controlOf, jumpControl_seen hr, hm]
  | bge l ops =>
    obtain ⟨t, c, hb, ⟨r, hr, hm⟩ | ⟨hlt, r, hr, hm⟩⟩ := h
    · rw [controlOf, branchControl_seen (r := (Instr.bge l ops).record) hb hr]
      simp [br1Stalls, hm]
    · rw [controlOf, branchControl_seen (r := (Instr.bge l ops).record) hb hr]
      simp [br1Stalls, br1Taken, hlt]
  | ble l ops =>
    obtain ⟨t, c, hb, ⟨r, hr, hm⟩ | ⟨hlt, r, hr, hm⟩⟩ := h
    · rw [controlOf, branchControl_seen (r := (Instr.ble l ops).record) hb hr]
      simp [br2Stalls, hm]
    · rw [controlOf, branchControl_seen (r := (Instr.ble l ops).record) hb hr]
      simp [br2Stalls, br2Taken, hlt]

/-! ### Resolutions -/

theorem readSym_seen (s : State) (p : Nat) (l : Text) : readSym s.seen p l = readSym s p l := rfl

theorem readSym_ok_iff (s : State) (p : Nat) (l : Text) (dst : Nat) :
    readSym s p l = .ok dst ↔ s.sym.lookup l = some dst ∧ dst < s.count := by
  unfold readSym
  cases s.sym.lookup l with
  | none => simp
  | some t =>
    by_cases h : t < s.count
    · simp only [h, if_true, Except.ok.injEq, Option.some.injEq]
      constructor
      · rintro rfl; exact ⟨rfl, h⟩
      · exact fun e => e.1
    · simp only [h, if_false, reduceCtorEq, Option.some.injEq, false_iff]
      rintro ⟨rfl, h'⟩; exact h h'

/-- What a performed resolution of `i` writes: the next `fetch_pos` and the counter table. -/
def Resolves (i : Instr) (s : State) (dst : Nat) (ctr : List (Nat × Int)) : Prop :=
  match i with
  | .generic _ _ _ => dst = s.fetchPos + 1 ∧ ctr = s.ctr
  | .lw _ _ => dst = s.fetchPos + 1 ∧ ctr = s.ctr
  | .sw _ _ => dst = s.fetchPos + 1 ∧ ctr = s.ctr
  | .jal _ ops => Names s ops 0 dst ∧ ctr = s.ctr
  | .bge _ ops => ∃ t c, BranchReads s ops t c ∧
      (t ≤ c ∧ Names s ops 1 dst ∧ ctr = putCtr s.fetchPos 0 s.ctr ∨
        c < t ∧ dst = s.fetchPos + 1 ∧ ctr = putCtr s.fetchPos (c + 1) s.ctr)
  | .ble _ ops => ∃ t c, BranchReads s ops t c ∧
      (c ≤ t ∧ Names s ops 1 dst ∧ ctr = putCtr s.fetchPos (c + 1) s.ctr ∨
        t < c ∧ dst = s.fetchPos + 1 ∧ ctr = putCtr s.fetchPos 0 s.ctr)

theorem branchResolve_taken {s : State} {r : Record} {taken : Int → Int → Bool} {next : Int → Int → Int}
    {t c : Int} {dst : Nat} (h : BranchReads s r.operands t c) (ht : taken c t = true)
    (hn : Names s r.operands 1 dst) :
    branchResolve taken next r s.seen = .ok ((s.seen.setCtr s.fetchPos (next c t)).goto dst) := by
  obtain ⟨⟨u, hu, hp⟩, hc⟩ := h
  obtain ⟨⟨l, hl, hs⟩, hlt⟩ := hn
  have hsym : readSym s.seen s.fetchPos l = .ok dst := (readSym_ok_iff s _ _ _).2 ⟨hs, hlt⟩
  have h1 : s.seen.fetchPos = s.fetchPos := rfl
  have h2 : s.seen.ctr = s.ctr := rfl
  simp [branchResolve, thresholdOf, hu, hp, readCtr, h1, h2, hc, ht, branchTargetOf, hl, hsym]

theorem branchResolve_notTaken {s : State} {r : Record} {taken : Int → Int → Bool}
    {next : Int → Int → Int} {t c : Int} (h : BranchReads s r.operands t c) (ht : taken c t = false) :
    branchResolve taken next r s.seen =
      .ok ((s.seen.setCtr s.fetchPos (next c t)).goto (s.fetchPos + 1)) := by
  obtain ⟨⟨u, hu, hp⟩, hc⟩ := h
  have h1 : s.seen.fetchPos = s.fetchPos := rfl
  have h2 : s.seen.ctr = s.ctr := rfl
  simp [branchResolve, thresholdOf, hu, hp, readCtr, h1, h2, hc, ht]

/-- A resolution that reads what `Resolves` says succeeds with what it says. -/
theorem resolveOf_of_resolves {i : Instr} {s : State} {dst : Nat} {ctr : List (Nat × Int)}
    (h : Resolves i s dst ctr) (hf : FetchFreed s) :
    ∃ t, resolveOf i s.seen = .ok t ∧ t.countCycle = s.afterMove dst ctr := by
  cases i with
  | generic => obtain ⟨rfl, rfl⟩ := h; exact ⟨_, rfl, seen_move hf _⟩
  | lw => obtain ⟨rfl, rfl⟩ := h; exact ⟨_, rfl, seen_move hf _⟩
  | sw => obtain ⟨rfl, rfl⟩ := h; exact ⟨_, rfl, seen_move hf _⟩
  | jal l ops =>
    obtain ⟨⟨⟨u, hu, hs⟩, hlt⟩, rfl⟩ := h
    have hsym : readSym s.seen s.fetchPos u = .ok dst := (readSym_ok_iff s _ _ _).2 ⟨hs, hlt⟩
    have h1 : s.seen.fetchPos = s.fetchPos := rfl
    refine ⟨_, ?_, seen_move hf dst⟩
    simp [resolveOf, jumpResolve, jumpTargetOf, Instr.record, hu, h1, hsym]
  | bge l ops =>
    obtain ⟨t, c, hb, ⟨hle, hn, rfl⟩ | ⟨hlt, rfl, rfl⟩⟩ := h
    · exact ⟨_, branchResolve_taken (r := (Instr.bge l ops).record) hb (by simpa [br1Taken] using hle) hn,
        by rw [seen_move_ctr hf]; simp [br1Next, br1Taken, hle]⟩
    · exact ⟨_, branchResolve_notTaken (r := (Instr.bge l ops).record) hb (by simpa [br1Taken] using hlt),
        by rw [seen_move_ctr hf]; simp [br1Next, br1Taken, Int.not_le.2 hlt]⟩
  | ble l ops =>
    obtain ⟨t, c, hb, ⟨hle, hn, rfl⟩ | ⟨hlt, rfl, rfl⟩⟩ := h
    · exact ⟨_, branchResolve_taken (r := (Instr.ble l ops).record) hb (by simpa [br2Taken] using hle) hn,
        by rw [seen_move_ctr hf]; simp [br2Next, br2Taken, hle]⟩
    · exact ⟨_, branchResolve_notTaken (r := (Instr.ble l ops).record) hb (by simpa [br2Taken] using hlt),
        by rw [seen_move_ctr hf]; simp [br2Next, br2Taken, Int.not_le.2 hlt]⟩

/-- A performed instruction: its control check passes and it resolves. -/
theorem exec_performs {i : Instr} {s : State} {dst : Nat} {ctr : List (Nat × Int)}
    (h : ReachesControl s i.record) (hc : controlOf i s.seen = .ok false) (hf : FetchFreed s)
    (hl : s.fetchPos ≠ s.last) (hr : Resolves i s dst ctr) : exec i s = .next (s.afterMove dst ctr) := by
  obtain ⟨t, ht, he⟩ := resolveOf_of_resolves hr hf
  apply exec_eq_of_result
  rw [cycleResult_control h, hc]
  simp [hf, hl, ht, he]

/-- An instruction whose target faults when it is read. -/
theorem exec_resolve_faults {i : Instr} {s : State} {c : Cause} (h : ReachesControl s i.record)
    (hc : ControlPasses i s) (hf : FetchFreed s) (hl : s.fetchPos ≠ s.last)
    (he : resolveOf i s.seen = .error c) : exec i s = .next (s.raise c) := by
  apply exec_eq_of_fault
  rw [cycleResult_control h, controlOf_passes hc]
  simp only [if_pos (And.intro hf hl), he]

theorem exec_control_stalls {i : Instr} {s : State} (h : ReachesControl s i.record)
    (hc : controlOf i s.seen = .ok true) : exec i s = .next (s.afterStay .stalled) := by
  apply exec_eq_of_result
  rw [cycleResult_control h, hc]

/-! ### Inversion -/

/-- The instruction is a counted branch. -/
def Counts (i : Instr) : Prop := ∃ l ops, i = .bge l ops ∨ i = .ble l ops

/-- Where a transfer finds its label: operand 0 of a `jal`, operand 1 of a counted branch. -/
def targetAt (i : Instr) : Nat :=
  match i with
  | .jal _ _ => 0
  | _ => 1

theorem branchControl_error {s : State} {r : Record} {stalls : Int → Int → Text → Bool} {c : Cause}
    (h : branchControl stalls r s.seen = .error c) :
    (r.operands[0]? = none ∧ c = .shortRecord s.fetchPos) ∨
    (∃ u, r.operands[0]? = some u ∧ parseInt u = none ∧ c = .badThreshold s.fetchPos) ∨
    (r.operands[0]? ≠ none ∧ s.ctr.lookup s.fetchPos = none ∧ c = .invariant) ∨
    (s.prog[s.execPos]? = none ∧ c = .invariant) := by
  have h1 : s.seen.fetchPos = s.fetchPos := rfl
  have h2 : s.seen.ctr = s.ctr := rfl
  have h3 : s.seen.prog = s.prog := rfl
  have h4 : s.seen.writebackPos = s.execPos := rfl
  unfold branchControl thresholdOf readCtr writebackMnemonic readProg at h
  rw [h1, h2, h3, h4] at h
  cases h0 : r.operands[0]? with
  | none => simp [h0, Config.shortRecord] at h; exact .inl ⟨rfl, h.symm⟩
  | some u =>
    cases hu : parseInt u with
    | none => simp [h0, hu] at h; exact .inr (.inl ⟨u, rfl, hu, h.symm⟩)
    | some t =>
      cases hc : s.ctr.lookup s.fetchPos with
      | none => simp [h0, hu, hc] at h; exact .inr (.inr (.inl ⟨by simp, rfl, h.symm⟩))
      | some v =>
        cases hw : s.prog[s.execPos]? with
        | none => simp [h0, hu, hc, hw] at h; exact .inr (.inr (.inr ⟨rfl, h.symm⟩))
        | some w => simp [h0, hu, hc, hw] at h

/-- The faults of a control check (41_fetch_unit.md R87). -/
theorem controlOf_error {i : Instr} {s : State} {c : Cause} (h : controlOf i s.seen = .error c) :
    (s.prog[s.execPos]? = none ∧ c = .invariant) ∨
    Counts i ∧ ((i.record.operands[0]? = none ∧ c = .shortRecord s.fetchPos) ∨
      (∃ u, i.record.operands[0]? = some u ∧ parseInt u = none ∧ c = .badThreshold s.fetchPos) ∨
      (i.record.operands[0]? ≠ none ∧ s.ctr.lookup s.fetchPos = none ∧ c = .invariant)) := by
  have key : ∀ stalls, Counts i → branchControl stalls i.record s.seen = .error c →
      (s.prog[s.execPos]? = none ∧ c = .invariant) ∨
      Counts i ∧ ((i.record.operands[0]? = none ∧ c = .shortRecord s.fetchPos) ∨
        (∃ u, i.record.operands[0]? = some u ∧ parseInt u = none ∧ c = .badThreshold s.fetchPos) ∨
        (i.record.operands[0]? ≠ none ∧ s.ctr.lookup s.fetchPos = none ∧ c = .invariant)) := by
    intro _ hi hb
    rcases branchControl_error hb with h | h | h | h
    · exact .inr ⟨hi, .inl h⟩
    · exact .inr ⟨hi, .inr (.inl h)⟩
    · exact .inr ⟨hi, .inr (.inr h)⟩
    · exact .inl h
  cases i with
  | generic => cases h
  | lw => cases h
  | sw => cases h
  | jal l ops =>
    left
    have h3 : s.seen.prog = s.prog := rfl
    have h4 : s.seen.writebackPos = s.execPos := rfl
    change jumpControl s.seen = .error c at h
    unfold jumpControl writebackMnemonic readProg at h
    rw [h3, h4] at h
    cases hw : s.prog[s.execPos]? with
    | none => simp [hw] at h; exact ⟨rfl, h.symm⟩
    | some w => simp [hw] at h
  | bge l ops => exact key _ ⟨l, ops, .inl rfl⟩ h
  | ble l ops => exact key _ ⟨l, ops, .inr rfl⟩ h

theorem readSym_error {s : State} {p : Nat} {l : Text} {c : Cause} (h : readSym s p l = .error c) :
    (s.sym.lookup l = none ∧ c = .unresolvedLabel p) ∨
      ∃ dst, s.sym.lookup l = some dst ∧ ¬dst < s.count ∧ c = .invariant := by
  unfold readSym at h
  cases hl : s.sym.lookup l with
  | none => simp [hl] at h; exact .inl ⟨rfl, h.symm⟩
  | some t =>
    by_cases ht : t < s.count
    · simp [hl, ht] at h
    · simp [hl, ht] at h; exact .inr ⟨t, rfl, ht, h.symm⟩

/-- Everything the resolution of a counted branch can do once its control check has read its fields. -/
theorem branchResolve_cases {s : State} {r : Record} {taken : Int → Int → Bool} {next : Int → Int → Int}
    {t c : Int} (hb : BranchReads s r.operands t c) :
    (taken c t = false) ∨ (taken c t = true ∧ ((∃ dst, Names s r.operands 1 dst) ∨
      ∃ e, branchResolve taken next r s.seen = .error e ∧
        ((r.operands[1]? = none ∧ e = .shortRecord s.fetchPos) ∨
          ∃ l, r.operands[1]? = some l ∧ ((s.sym.lookup l = none ∧ e = .unresolvedLabel s.fetchPos) ∨
            ∃ dst, s.sym.lookup l = some dst ∧ ¬dst < s.count ∧ e = .invariant)))) := by
  cases ht : taken c t with
  | false => exact .inl rfl
  | true =>
    refine .inr ⟨rfl, ?_⟩
    obtain ⟨⟨u, hu, hp⟩, hc⟩ := hb
    have h1 : s.seen.fetchPos = s.fetchPos := rfl
    have h2 : s.seen.ctr = s.ctr := rfl
    cases hl : r.operands[1]? with
    | none =>
      exact .inr ⟨_, by
        simp [branchResolve, thresholdOf, hu, hp, readCtr, h1, h2, hc, ht, branchTargetOf, hl]; rfl,
        .inl ⟨rfl, rfl⟩⟩
    | some l =>
      cases hs : readSym s s.fetchPos l with
      | ok dst => exact .inl ⟨dst, ⟨l, hl, ((readSym_ok_iff _ _ _ _).1 hs).1⟩, ((readSym_ok_iff _ _ _ _).1 hs).2⟩
      | error e =>
        refine .inr ⟨e, ?_, .inr ⟨l, rfl, readSym_error hs⟩⟩
        have hs' : readSym s.seen s.fetchPos l = .error e := hs
        simp [branchResolve, thresholdOf, hu, hp, readCtr, h1, h2, hc, ht, branchTargetOf, hl, hs']

theorem branchControl_ok {s : State} {r : Record} {stalls : Int → Int → Text → Bool} {b : Bool}
    (h : branchControl stalls r s.seen = .ok b) :
    ∃ t c w, BranchReads s r.operands t c ∧ s.prog[s.execPos]? = some w ∧ b = stalls c t w.mnemonic := by
  have h1 : s.seen.fetchPos = s.fetchPos := rfl
  have h2 : s.seen.ctr = s.ctr := rfl
  have h3 : s.seen.prog = s.prog := rfl
  have h4 : s.seen.writebackPos = s.execPos := rfl
  unfold branchControl thresholdOf readCtr writebackMnemonic readProg at h
  rw [h1, h2, h3, h4] at h
  cases h0 : r.operands[0]? with
  | none => simp [h0] at h
  | some u =>
    cases hu : parseInt u with
    | none => simp [h0, hu] at h
    | some t =>
      cases hc : s.ctr.lookup s.fetchPos with
      | none => simp [h0, hu, hc] at h
      | some v =>
        cases hw : s.prog[s.execPos]? with
        | none => simp [h0, hu, hc, hw] at h
        | some w =>
          simp [h0, hu, hc, hw] at h
          exact ⟨t, v, w, ⟨⟨u, h0, hu⟩, hc⟩, rfl, h.symm⟩

/-- Everything the resolution of an instruction can do once its control check has let it pass: it resolves, or
the fields of its target fault (41_fetch_unit.md R87). -/
theorem resolveOf_cases {i : Instr} {s : State} {b : Bool} (h : controlOf i s.seen = .ok b) :
    (∃ dst ctr, Resolves i s dst ctr) ∨
    ∃ e, resolveOf i s.seen = .error e ∧ (Counts i ∨ ∃ l ops, i = .jal l ops) ∧
      ((i.record.operands[targetAt i]? = none ∧ e = .shortRecord s.fetchPos) ∨
        ∃ l, i.record.operands[targetAt i]? = some l ∧
          ((s.sym.lookup l = none ∧ e = .unresolvedLabel s.fetchPos) ∨
            ∃ dst, s.sym.lookup l = some dst ∧ ¬dst < s.count ∧ e = .invariant)) := by
  cases i with
  | generic => exact .inl ⟨_, _, rfl, rfl⟩
  | lw => exact .inl ⟨_, _, rfl, rfl⟩
  | sw => exact .inl ⟨_, _, rfl, rfl⟩
  | jal l ops =>
    have h1 : s.seen.fetchPos = s.fetchPos := rfl
    cases ht : ops[0]? with
    | none =>
      exact .inr ⟨_, by simp [resolveOf, jumpResolve, jumpTargetOf, Instr.record, h1, ht]; rfl,
        .inr ⟨l, ops, rfl⟩, .inl ⟨ht, rfl⟩⟩
    | some u =>
      cases hs : readSym s s.fetchPos u with
      | ok dst =>
        exact .inl ⟨dst, s.ctr, ⟨⟨u, ht, ((readSym_ok_iff _ _ _ _).1 hs).1⟩,
          ((readSym_ok_iff _ _ _ _).1 hs).2⟩, rfl⟩
      | error e =>
        have hs' : readSym s.seen s.fetchPos u = .error e := hs
        exact .inr ⟨e, by simp [resolveOf, jumpResolve, jumpTargetOf, Instr.record, h1, ht, hs'],
          .inr ⟨l, ops, rfl⟩, .inr ⟨u, ht, readSym_error hs⟩⟩
  | bge l ops =>
    obtain ⟨t, c, w, hb, -, -⟩ := branchControl_ok h
    rcases branchResolve_cases (taken := br1Taken) (next := br1Next) hb with
      hn | ⟨ht, ⟨dst, hd⟩ | ⟨e, he, hf⟩⟩
    · exact .inl ⟨_, _, t, c, hb, .inr ⟨by simpa [br1Taken] using hn, rfl, rfl⟩⟩
    · exact .inl ⟨dst, _, t, c, hb, .inl ⟨by simpa [br1Taken] using ht, hd, rfl⟩⟩
    · exact .inr ⟨e, he, .inl ⟨l, ops, .inl rfl⟩, hf⟩
  | ble l ops =>
    obtain ⟨t, c, w, hb, -, -⟩ := branchControl_ok h
    rcases branchResolve_cases (taken := br2Taken) (next := br2Next) hb with
      hn | ⟨ht, ⟨dst, hd⟩ | ⟨e, he, hf⟩⟩
    · exact .inl ⟨_, _, t, c, hb, .inr ⟨by simpa [br2Taken] using hn, rfl, rfl⟩⟩
    · exact .inl ⟨dst, _, t, c, hb, .inl ⟨by simpa [br2Taken] using ht, hd, rfl⟩⟩
    · exact .inr ⟨e, he, .inl ⟨l, ops, .inr rfl⟩, hf⟩

/-- The faults a cycle can raise, with where each is found (60_exceptions.md R120, R127). The cases with
`F_INVARIANT` are those of 60_exceptions.md R126. -/
def Raises (i : Instr) (s : State) (c : Cause) : Prop :=
  (s.prog[s.execPos]? = none ∧ c = .invariant) ∨
  (∃ k, s.execPos ≤ k ∧ k < s.fetchPos ∧ s.prog[k]? = none ∧ c = .invariant) ∨
  (∃ k ri, s.execPos ≤ k ∧ k < s.fetchPos ∧ s.prog[k]? = some ri ∧ isCountedBranch ri = false ∧
    ri.operands = [] ∧ c = .shortRecord k) ∨
  Counts i ∧ ((i.record.operands[0]? = none ∧ c = .shortRecord s.fetchPos) ∨
    (∃ u, i.record.operands[0]? = some u ∧ parseInt u = none ∧ c = .badThreshold s.fetchPos) ∨
    (i.record.operands[0]? ≠ none ∧ s.ctr.lookup s.fetchPos = none ∧ c = .invariant)) ∨
  s.fetchPos ≠ s.last ∧ (Counts i ∨ ∃ l ops, i = .jal l ops) ∧
    ((i.record.operands[targetAt i]? = none ∧ c = .shortRecord s.fetchPos) ∨
      ∃ l, i.record.operands[targetAt i]? = some l ∧
        ((s.sym.lookup l = none ∧ c = .unresolvedLabel s.fetchPos) ∨
          ∃ dst, s.sym.lookup l = some dst ∧ ¬dst < s.count ∧ c = .invariant))

/-- Everything a cycle can do, the one lemma every later proof about `exec` cites: a fault is raised and nothing
else happens; a latency cycle; the execute cursor advances and fetch stays, stalled, held or at `last`; or the
execute cursor advances and the instruction is performed. -/
theorem exec_cases (i : Instr) (s : State) :
    (∃ c, exec i s = .next (s.raise c) ∧ Raises i s c) ∨
    (ExecuteStalls s ∧ exec i s = .next s.seenLatency.stallFetch.countCycle) ∨
    (∃ fs, ExecuteAdvances s ∧ exec i s = .next (s.afterStay fs) ∧
      (fs = .free → FetchFreed s ∧ s.fetchPos = s.last)) ∨
    (∃ dst ctr, ExecuteAdvances s ∧ exec i s = .next (s.afterMove dst ctr) ∧ FetchFreed s ∧
      s.fetchPos ≠ s.last ∧ Resolves i s dst ctr) := by
  rcases executeUnit_cases s with ⟨ha, -⟩ | ⟨hs, -⟩ | ⟨-, hn, he⟩
  · rcases dataHazard_cases s i.record with ⟨hp, -⟩ | ⟨k, hk, -⟩ | ⟨k, hk, -⟩ | ⟨k, h1, h2, hk, he⟩
    · have hr : ReachesControl s i.record := ⟨ha, hp⟩
      cases hc : controlOf i s.seen with
      | error c =>
        refine .inl ⟨c, exec_eq_of_fault (by rw [cycleResult_control hr, hc]), ?_⟩
        exact (controlOf_error hc).elim Or.inl fun h => Or.inr (.inr (.inr (.inl h)))
      | ok b =>
        cases b with
        | true => exact .inr (.inr (.inl ⟨.stalled, ha, exec_control_stalls hr hc, by simp⟩))
        | false =>
          by_cases hm : FetchFreed s ∧ s.fetchPos ≠ s.last
          · rcases resolveOf_cases hc with ⟨dst, ctr, hres⟩ | ⟨e, he, hf⟩
            · exact .inr (.inr (.inr ⟨dst, ctr, ha, exec_performs hr hc hm.1 hm.2 hres, hm.1, hm.2, hres⟩))
            · refine .inl ⟨e, exec_eq_of_fault ?_, Or.inr (.inr (.inr (.inr ⟨hm.2, hf⟩)))⟩
              rw [cycleResult_control hr, hc]
              simp only [if_pos hm, he]
          · refine .inr (.inr (.inl ⟨fetchStatusAfterWriteBack s, ha, exec_eq_of_result ?_, ?_⟩))
            · rw [cycleResult_control hr, hc]
              simp only [if_neg hm]
            · intro hf
              rw [fetchStatusAfterWriteBack_free_iff] at hf
              exact ⟨hf, by by_contra hl; exact hm ⟨hf, hl⟩⟩
    · exact .inr (.inr (.inl ⟨.stalled, ha, exec_eq_of_result (cycleResult_hazard ha hk), by simp⟩))
    · refine .inl ⟨_, exec_eq_of_fault (cycleResult_short ha hk), ?_⟩
      obtain ⟨h1, h2, -, ri, hi, hb, hd⟩ := hk
      exact Or.inr (.inr (.inl ⟨k, ri, h1, h2, hi, hb, hd, rfl⟩))
    · refine .inl ⟨.invariant, exec_eq_of_fault ?_, Or.inr (.inl ⟨k, h1, h2, hk, rfl⟩)⟩
      rw [cycleResult, executeUnit_advances ha]
      have he' : s.seen.executeStatus = .free := rfl
      simp [fetchUnit, he, he']
  · exact .inr (.inl ⟨hs, exec_eq_of_result (cycleResult_latency hs i)⟩)
  · refine .inl ⟨.invariant, exec_eq_of_fault ?_, Or.inl ⟨hn, rfl⟩⟩
    rw [cycleResult, he]

end Sys2Proof.Machine
end

