-- ==== Sys2Proof/Laws/PerInstr.lean ====
section
/-!
SUPPORT. One lemma per constructor of `Instr`. Family `Classify`: a well-formed instruction is the one its record
stands for, so no two constructors share a record (30_encoding.md R42, R51).
-/

namespace Sys2Proof.Laws.Classify

/-- The record of a well-formed instruction is classified as that instruction. -/
def Statement (i : Instr) : Prop := i.wellFormed = true → i.record.instr = i

theorem generic (label : Option Text) (mnemonic : Text) (operands : List Text) :
    Statement (.generic label mnemonic operands) := by
  intro h
  have hm : classOf mnemonic = .generic := by simp [Instr.wellFormed] at h; exact h.1.2
  simp [Instr.record, Record.instr, hm]

theorem lw (label : Option Text) (operands : List Text) : Statement (.lw label operands) := fun _ => by
  simp [Instr.record, Record.instr, classOf_mnemonics]

theorem sw (label : Option Text) (operands : List Text) : Statement (.sw label operands) := fun _ => by
  simp [Instr.record, Record.instr, classOf_mnemonics]

theorem jal (label : Option Text) (operands : List Text) : Statement (.jal label operands) := fun _ => by
  simp [Instr.record, Record.instr, classOf_mnemonics]

theorem bge (label : Option Text) (operands : List Text) : Statement (.bge label operands) := fun _ => by
  simp [Instr.record, Record.instr, classOf_mnemonics]

theorem ble (label : Option Text) (operands : List Text) : Statement (.ble label operands) := fun _ => by
  simp [Instr.record, Record.instr, classOf_mnemonics]

end Sys2Proof.Laws.Classify
end

