-- ==== Sys2Proof/Laws/Step.lean ====
section
/-!
SUPPORT. What a completed cycle, a step and a run can do, from `exec_cases`.
-/

namespace Sys2Proof.Machine

theorem next_inj {s t : State}
    (h : (Host.Outcome.next s : Host.Outcome State Fault Refusal) = .next t) : s = t := by
  injection h

/-- Everything a completed cycle can do. -/
theorem completes_cases {i : Instr} {s t : State} (h : Completes i s t) :
    (ExecuteStalls s ∧ t = s.seenLatency.stallFetch.countCycle) ∨
    (∃ fs, ExecuteAdvances s ∧ t = s.afterStay fs ∧ (fs = .free → FetchFreed s ∧ s.fetchPos = s.last)) ∨
    (∃ dst ctr, ExecuteAdvances s ∧ t = s.afterMove dst ctr ∧ FetchFreed s ∧ s.fetchPos ≠ s.last ∧
      Resolves i s dst ctr) := by
  obtain ⟨he, hc⟩ := h
  rcases exec_cases i s with ⟨c, h, -⟩ | ⟨h1, h⟩ | ⟨fs, h1, h, h2⟩ | ⟨d, ctr, h1, h, h2⟩ <;> rw [h] at he
  · have := next_inj he
    subst this
    simp at hc
  · exact .inl ⟨h1, (next_inj he).symm⟩
  · exact .inr (.inl ⟨fs, h1, (next_inj he).symm, h2⟩)
  · exact .inr (.inr ⟨d, ctr, h1, (next_inj he).symm, h2⟩)

/-- Where a performed instruction goes. -/
theorem resolves_dst {i : Instr} {s : State} {dst : Nat} {ctr : List (Nat × Int)}
    (h : Resolves i s dst ctr) :
    dst = s.fetchPos + 1 ∨ ∃ l, s.sym.lookup l = some dst ∧ dst < s.count := by
  cases i with
  | generic => exact .inl h.1
  | lw => exact .inl h.1
  | sw => exact .inl h.1
  | jal => obtain ⟨⟨⟨l, -, h⟩, h'⟩, -⟩ := h; exact .inr ⟨l, h, h'⟩
  | bge =>
    obtain ⟨t, c, -, ⟨-, ⟨⟨l, -, h⟩, h'⟩, -⟩ | ⟨-, h, -⟩⟩ := h
    · exact .inr ⟨l, h, h'⟩
    · exact .inl h
  | ble =>
    obtain ⟨t, c, -, ⟨-, ⟨⟨l, -, h⟩, h'⟩, -⟩ | ⟨-, h, -⟩⟩ := h
    · exact .inr ⟨l, h, h'⟩
    · exact .inl h

/-- What a performed instruction writes to the counters. -/
theorem resolves_ctr {i : Instr} {s : State} {dst : Nat} {ctr : List (Nat × Int)}
    (h : Resolves i s dst ctr) :
    ctr = s.ctr ∨ (Counts i ∧ ∃ v, ctr = putCtr s.fetchPos v s.ctr) := by
  cases i with
  | generic => exact .inl h.2
  | lw => exact .inl h.2
  | sw => exact .inl h.2
  | jal => exact .inl h.2
  | bge l ops =>
    obtain ⟨t, c, -, ⟨-, -, h⟩ | ⟨-, -, h⟩⟩ := h <;> exact .inr ⟨⟨l, ops, .inl rfl⟩, _, h⟩
  | ble l ops =>
    obtain ⟨t, c, -, ⟨-, -, h⟩ | ⟨-, -, h⟩⟩ := h <;> exact .inr ⟨⟨l, ops, .inr rfl⟩, _, h⟩

theorem counts_record {r : Record} (h : Counts r.instr) : isCountedBranch r = true := by
  obtain ⟨l, ops, h⟩ := h
  have := record_instr_record r
  rcases h with h | h <;> rw [h] at this <;> subst this <;>
    simp [isCountedBranch, Instr.record, classOf_mnemonics]

theorem atEnd_eq_false {s : State} (h : s.atEnd = false) : 0 < s.count ∧ s.writebackPos ≠ s.last := by
  simp [State.atEnd] at h
  exact ⟨by omega, h.2⟩

/-- Everything a step that answers a next state can do. -/
theorem step_cases {s t : State} (h : step s = .next t) : s.fault = none ∧
    ((s.atEnd = true ∧ t = s) ∨
      (s.atEnd = false ∧ s.prog[s.fetchPos]? = none ∧ t = s.raise .invariant) ∨
      (s.atEnd = false ∧ ∃ r, s.prog[s.fetchPos]? = some r ∧ exec r.instr s = .next t)) := by
  unfold step at h
  split at h
  · cases h
  rename_i hf
  refine ⟨hf, ?_⟩
  have hst : s.stopsBeforeCycle = s.atEnd := by simp [State.stopsBeforeCycle, Config.loopTestFirst]
  rw [hst] at h
  split at h
  · rename_i he; exact .inl ⟨he, (next_inj h).symm⟩
  rename_i he
  have he : s.atEnd = false := by simpa using he
  unfold fetchInstr at h
  cases hr : s.prog[s.fetchPos]? with
  | none => simp [hr] at h; exact .inr (.inl ⟨he, rfl, h.symm⟩)
  | some r => simp [hr] at h; exact .inr (.inr ⟨he, r, rfl, h⟩)

/-! ### Runs -/

theorem run_cons (n : Nat) (s u : State) (h : step s = .next u) :
    Host.Core.run core (n + 1) s = Host.Core.run core n u := by
  have h' : core.step s = .next u := h
  simp only [Host.Core.run, h']

theorem run_uncons (n : Nat) (s t : State) (h : Host.Core.run core (n + 1) s = .next t) :
    ∃ u, step s = .next u ∧ Host.Core.run core n u = .next t := by
  simp only [Host.Core.run] at h
  have e : core.step s = step s := rfl
  cases hs : step s with
  | next u => rw [e, hs] at h; exact ⟨u, rfl, h⟩
  | fault r => rw [e, hs] at h; simp at h
  | refused r => rw [e, hs] at h; simp at h

theorem run_snoc (n : Nat) (s u t : State) (h1 : Host.Core.run core n s = .next u)
    (h2 : step u = .next t) : Host.Core.run core (n + 1) s = .next t := by
  induction n generalizing s with
  | zero =>
    have h1 : (Host.Outcome.next s : Host.Outcome State Fault Refusal) = .next u := h1
    rw [next_inj h1, run_cons 0 _ _ h2]; rfl
  | succ n ih =>
    obtain ⟨v, hv, h⟩ := run_uncons n s u h1
    rw [run_cons _ _ _ hv]
    exact ih v h

end Sys2Proof.Machine
end

