-- ==== Sys2Proof/Tests/Slice0.lean ====
section
/-!
SUPPORT. Tests of the model against the worked examples of 95_test_vectors.md (named in each comment), the smoke tests of the
well-formedness checks, and a witness for every statement of Certificates/Slice0/Obligations.lean that has
hypotheses.
-/

namespace Sys2Proof.Tests

open Sys2Proof Sys2Proof.Machine

/-! ### Helpers -/

/-- A list of texts written as strings. -/
def texts (l : List String) : List Text := l.map bytesOf

/-- The source text of some lines, each ended by CR LF. -/
def src (lines : List String) : Text := lines.flatMap fun l => bytesOf l ++ [0x0D#8, 0x0A#8]

/-- A running engine with the tables of some lines and the given cursors and statuses. -/
def running (lines : List String) (f e w : Nat) (fs es : Status) : State :=
  { State.resetWith (.text (src lines)) with
    fetchPos := f, execPos := e, writebackPos := w, fetchStatus := fs, executeStatus := es }

/-- The same with counters of the test's own. -/
def counting (lines : List String) (f e w : Nat) (fs es : Status) (ctr : List (Nat × Int)) : State :=
  { running lines f e w fs es with ctr := ctr }

/-- The next state of an outcome, the reset state where there is none. -/
def nextOf : Host.Outcome State Fault Refusal → State
  | .next s => s
  | _ => State.reset

/-- The outcome is a next state. -/
def isNext : Host.Outcome State Fault Refusal → Bool
  | .next _ => true
  | _ => false

theorem eq_next {o : Host.Outcome State Fault Refusal} (h : isNext o = true) : o = .next (nextOf o) := by
  cases o <;> first | rfl | cases h

/-- One row of a trace of 95_test_vectors.md. -/
structure Row where
  fetch : Nat
  exec : Nat
  writeback : Nat
  fetchStatus : Status
  executeStatus : Status
  ctr : List (Nat × Int)
  fault : Option Cause
deriving DecidableEq, Repr

/-- The row of a state. -/
def row (s : State) : Row :=
  ⟨s.fetchPos, s.execPos, s.writebackPos, s.fetchStatus, s.executeStatus, s.ctr, s.fault⟩

def v1 : List String := ["addi x1, x1, 1", "addi x2, x2, 1", "jal end", "end: addi x3, x3, 1"]
def v3 : List String := ["add a1, a2, a3", "add b1, b2, b3"]
def v5 : List String := ["add a1, a2, a3", "lw b1, 0(b2)", "add c1, c2, c3", "add d1, d2, d3"]
def v7 : List String := ["add a1, a2, a3", "sw b1, 0(b2)", "add c1, c2, c3", "add d1, d2, d3"]
def v11 : List String := ["loop: addi a1, a1, 1", "ble 1, loop", "addi c3, c3, 1"]
def v12 : List String := ["top: addi a1, a1, 1", "bge 2, out", "jal top", "out: addi c3, c3, 1"]

/-! ### WellFormed: one ill-formed term for each check -/

theorem test_wf_refuses_label_with_terminator :
    (Instr.lw (some (bytesOf "a:b")) (texts ["x"])).wellFormed = false := by decide
theorem test_wf_refuses_label_with_space :
    (Instr.sw (some (bytesOf "a b")) (texts ["x"])).wellFormed = false := by decide
theorem test_wf_refuses_mnemonic_with_space :
    (Instr.generic none (bytesOf "a b") (texts ["x"])).wellFormed = false := by decide
theorem test_wf_refuses_unlabelled_mnemonic_with_terminator :
    (Instr.generic none (bytesOf "a:") (texts ["x"])).wellFormed = false := by decide
theorem test_wf_refuses_generic_lw :
    (Instr.generic none (bytesOf "lw") (texts ["x"])).wellFormed = false := by decide
theorem test_wf_refuses_operand_with_line_separator :
    (Instr.jal none [[0x0A#8]]).wellFormed = false := by decide
theorem test_wf_refuses_branch_operand_with_space :
    (Instr.bge none (texts ["1 ", "l"])).wellFormed = false ∧
      (Instr.ble none (texts ["1", "l m"])).wellFormed = false := by decide
theorem test_wf_accepts : (Instr.bge (some (bytesOf "l")) (texts ["2", "out"])).wellFormed = true := by decide

/-- 30_encoding.md R52, clause by clause. -/
theorem test_normal_refuses_no_operand : (Instr.lw none []).normal = false := by decide
theorem test_normal_refuses_comma_in_mnemonic :
    (Instr.generic none (bytesOf "add,") (texts ["a"])).normal = false := by decide
theorem test_normal_refuses_empty_label : (Instr.sw (some []) (texts ["a"])).normal = false := by decide
theorem test_normal_refuses_second_jal_operand :
    (Instr.jal none (texts ["a", "b"])).normal = false := by decide
theorem test_normal_refuses_third_branch_operand :
    (Instr.bge none (texts ["1", "b", "c"])).normal = false := by decide
theorem test_normal_refuses_threshold_not_integer :
    (Instr.ble none (texts ["x5", "l"])).normal = false := by decide
theorem test_normal_threshold_bound :
    (Instr.ble none (texts ["2147483647", "l"])).normal = false ∧
      (Instr.ble none (texts ["2147483646", "l"])).normal = true := by decide
theorem test_normal_refuses_operand_spelled_bge :
    (Instr.generic none (bytesOf "add") (texts ["bge"])).normal = false := by decide
theorem test_normal_refuses_hex_mark_inside :
    (Instr.generic none (bytesOf "add") (texts ["a0x1"])).normal = false ∧
      (Instr.generic none (bytesOf "add") (texts ["0x"])).normal = false ∧
      (Instr.generic none (bytesOf "add") (texts ["0x1F"])).normal = true := by decide
theorem test_source_refuses_undefined_target : wellFormedText (src ["jal end"]) = false := by decide
theorem test_source_refuses_second_definition :
    wellFormedText (src ["l: add a, b", "l: add c, d"]) = false := by decide
/-- The eol-char: no terminator (clause 2), no letter that completes `bge` (decision D24); CR and others pass. -/
theorem test_source_eol_char :
    lineNormal (bytesOf "add a, b:") = false ∧ lineNormal (bytesOf "add a, b,") = false ∧
      lineNormal (bytesOf "add a, bge") = false ∧ lineNormal (bytesOf "add a, b\r") = true ∧
      lineNormal (bytesOf "add a, bgX") = true := by decide
theorem test_source_refuses_two_spaces : wellFormedText (src ["addi  x1, x1, 1"]) = false := by decide

/-! ### Decode: words written out byte by byte (30_encoding.md R38, R56) -/

/-- `add a, b` CR. -/
theorem test_decode_generic :
    decode [0x61#8, 0x64#8, 0x64#8, 0x20#8, 0x61#8, 0x2C#8, 0x20#8, 0x62#8, 0x0D#8] =
      .ok (.generic none [0x61#8, 0x64#8, 0x64#8] [[0x61#8], [0x62#8]]) := by decide
/-- `lw a, b` CR. -/
theorem test_decode_lw :
    decode [0x6C#8, 0x77#8, 0x20#8, 0x61#8, 0x2C#8, 0x20#8, 0x62#8, 0x0D#8] =
      .ok (.lw none [[0x61#8], [0x62#8]]) := by decide
/-- `sw a, b` CR. -/
theorem test_decode_sw :
    decode [0x73#8, 0x77#8, 0x20#8, 0x61#8, 0x2C#8, 0x20#8, 0x62#8, 0x0D#8] =
      .ok (.sw none [[0x61#8], [0x62#8]]) := by decide
/-- `jal l` CR. -/
theorem test_decode_jal :
    decode [0x6A#8, 0x61#8, 0x6C#8, 0x20#8, 0x6C#8, 0x0D#8] = .ok (.jal none [[0x6C#8]]) := by decide
/-- `bge 2, l` CR. -/
theorem test_decode_bge :
    decode [0x62#8, 0x67#8, 0x65#8, 0x20#8, 0x32#8, 0x2C#8, 0x20#8, 0x6C#8, 0x0D#8] =
      .ok (.bge none [[0x32#8], [0x6C#8]]) := by decide
/-- `l: ble 0, l` CR. -/
theorem test_decode_ble :
    decode [0x6C#8, 0x3A#8, 0x20#8, 0x62#8, 0x6C#8, 0x65#8, 0x20#8, 0x30#8, 0x2C#8, 0x20#8, 0x6C#8, 0x0D#8] =
      .ok (.ble (some [0x6C#8]) [[0x30#8], [0x6C#8]]) := by decide
/-- Section 5: the label ends at the first terminator; `addi` is lost with the head token. -/
theorem test_decode_label_ends_at_first_terminator :
    decode (bytesOf "a:b: add x1, x2, x3\r") =
        .ok (.generic (some (bytesOf "a")) (bytesOf "add") (texts ["x1", "x2", "x3"])) ∧
      decode (bytesOf "loop:addi x1, x1, 1\r") =
        .ok (.generic (some (bytesOf "loop")) (bytesOf "x1,") (texts ["x1", "1"])) := by decide
/-- Section 5: the strip takes a real character, also from a mnemonic. -/
theorem test_decode_strips_a_real_character :
    decode (bytesOf "lw x1, 0(x2)") = .ok (.lw none (texts ["x1", "0(x2"])) ∧
      decode (bytesOf "jal") = .ok (.generic none (bytesOf "ja") []) := by decide
/-- Section 5: a space before the CR gives an empty operand; two spaces give one at index 2. -/
theorem test_decode_empty_operands :
    decode (bytesOf "bge \r") = .ok (.bge none [[]]) ∧
      decode (bytesOf "addi  x1, x1, 1\r") = .ok (.generic none (bytesOf "addi") (texts ["", "x1", "x1", "1"])) := by
  decide
/-- Section 5: blank lines are instructions, a label with nothing after it is none. -/
theorem test_decode_edges :
    decode (bytesOf "\r") = .ok (.generic none [] []) ∧ decode [] = .ok (.generic none [] []) ∧
      decode (bytesOf "name: \r") = .ok (.generic (some (bytesOf "name")) [] []) ∧
      decode (bytesOf "name:\r") = .error .labelOnlyLine := by decide
/-- The bytes of `lw a` CR as a bit-numbered word, and of `lw a` without CR (log entry 9). -/
theorem test_decodeTableWord :
    decodeTableWord 40 0x0D6120776C = some (.lw none [bytesOf "a"]) ∧
      decodeTableWord 32 0x6120776C = some (.lw none [bytesOf "a"]) := by decide
/-- A word placed at the fetch cursor of the reset machine is fetched and run: `fetch_pos` moves on. -/
theorem test_withFetchWord :
    fetchInstr (State.reset.withFetchWord 40 0x0D6120776C) = some (.lw none [bytesOf "a"]) ∧
      (nextOf (step (State.reset.withFetchWord 40 0x0D6120776C))).cycles = 1 := by decide

/-! ### Widths and stages (00_scope.md R6, decision D9) -/

/-- The range suggested for a bounded build of 32 bits. -/
theorem test_threshold_range_of_32_bits :
    [-2147483649, -2147483648, 2147483646, 2147483647].map (holdsThreshold (.bits 32)) =
      [false, true, true, false] := by decide
theorem test_three_stages : (running v1 3 2 1 .free .free).cursors.toList = [1, 2, 3] := by decide

/-! ### Texts (section 2) -/

theorem test_contains : ∀ t ∈ texts ["x1", "x10", "0(x1)", "fix1"], containsText t (bytesOf "x1") = true := by
  decide
theorem test_contains_not :
    (∀ t ∈ texts ["x2", "X1", "x", "1x"], containsText t (bytesOf "x1") = false) ∧
      tokenContains none [] = false ∧ tokenContains (some []) [] = true := by decide
theorem test_parseInt : (texts ["0", "5", "-1", "007", "-0"]).map parseInt = [some 0, some 5, some (-1), some 7, some 0] := by
  decide
theorem test_parseInt_faults :
    ∀ t ∈ texts ["+5", "0x5", "5a", "", "x5", "--1", "5 ", "-"], parseInt t = none := by decide
/-- The `lat` list of section 2. -/
theorem test_needsLatency :
    ([⟨none, bytesOf "lw", texts ["a1", "0(a2)"]⟩, ⟨none, bytesOf "lui", texts ["b1", "0x10"]⟩,
        ⟨none, bytesOf "jal", texts ["box0x"]⟩] : List Record).map needsLatency = [true, true, true] ∧
      ([⟨none, bytesOf "addi", texts ["b1", "0x10", "b2"]⟩, ⟨none, bytesOf "LW", texts ["a1", "0(a2)"]⟩,
        ⟨none, bytesOf "0x", []⟩, ⟨some (bytesOf "0x1"), bytesOf "add", texts ["a", "b"]⟩] : List Record).map
          needsLatency = [false, false, false, false] := by decide

/-! ### The loader (section 5) -/

/-- A final empty piece is dropped, every other piece is kept. -/
theorem test_linesOf :
    linesOf [] = [] ∧ linesOf (bytesOf "\n\n") = [[], []] ∧ linesOf (bytesOf "a\n\nb") = texts ["a", "", "b"] ∧
      linesOf (bytesOf "a\n") = texts ["a"] := by decide

/-- `Sym` and `Ctr` of section 5: step 4 registers a labelled branch, a stray operand `bge` registers too. -/
theorem test_loader_entries :
    load (.text (src ["l: ble 0, l", "add bge, ble, x"])) =
      .ok ⟨[⟨some (bytesOf "l"), bytesOf "ble", texts ["0", "l"]⟩,
        ⟨none, bytesOf "add", texts ["bge", "ble", "x"]⟩], [(bytesOf "l", 0)], [(0, 0), (1, 0)]⟩ := by decide
/-- The operand or mnemonic was `bge` with its CR when it was compared: no counter. -/
theorem test_loader_compares_before_strip :
    ((load (.text (src ["jal bge", "bge", "l: bge"]))).toOption.map Tables.ctr) = some [] := by decide
/-- V32, V33. -/
theorem test_loader_faults :
    load (.text (src ["l: add a, b", "l: add c, d"])) = .error (.dupLabel 1) ∧
      load (.text (src ["name:", "add a, b"])) = .error (.labelOnlyLine 0) := by decide

/-! ### One step of each instruction -/

/-- Generic: V1 cycle 1, `seq`; V9 cycle 2, `data(0)`. -/
theorem test_generic_advances :
    row (nextOf (step (running v1 0 0 0 .free .free))) = ⟨1, 0, 0, .free, .free, [], none⟩ := by decide
theorem test_generic_data_hazard :
    row (nextOf (step (running ["addi a1, a0, 1", "addi b2, a1, 1", "addi c3, c0, 0"] 1 0 0 .free .free))) =
      ⟨1, 1, 0, .stalled, .free, [], none⟩ := by decide
/-- `lw`: V5 cycles 3 and 4, its latency cycle and the cycle that ends it; V4 cycle 1. -/
theorem test_lw_latency :
    row (nextOf (step (running v5 2 1 0 .free .free))) = ⟨2, 1, 1, .stalled, .stalled, [], none⟩ ∧
      row (nextOf (step (running v5 2 1 1 .stalled .stalled))) = ⟨3, 2, 1, .free, .free, [], none⟩ := by decide
/-- `lw` at the fetch unit: V5 cycle 2. -/
theorem test_lw_advances :
    row (nextOf (step (running v5 1 0 0 .free .free))) = ⟨2, 1, 0, .free, .free, [], none⟩ := by decide
/-- `sw`: V7 cycles 2 and 3. -/
theorem test_sw :
    row (nextOf (step (running v7 1 0 0 .free .free))) = ⟨2, 1, 0, .free, .free, [], none⟩ ∧
      row (nextOf (step (running v7 2 1 0 .free .free))) = ⟨2, 1, 1, .stalled, .stalled, [], none⟩ := by decide
/-- `jal`: V1 cycles 3 (`ctl`), 4 (`held`) and 5 (`jump`). -/
theorem test_jal_stalls :
    row (nextOf (step (running v1 2 1 0 .free .free))) = ⟨2, 2, 1, .stalled, .free, [], none⟩ ∧
      row (nextOf (step (running v1 2 2 1 .stalled .free))) = ⟨2, 2, 2, .stalled, .free, [], none⟩ := by decide
theorem test_jal_jumps :
    row (nextOf (step (running v1 2 2 2 .stalled .free))) = ⟨3, 2, 2, .free, .free, [], none⟩ := by decide
/-- `bge`: V12 cycle 7 (`nt`, counter 1 below 2) and cycles 12 (`ctl`) and 14 (`taken`, counter 2). -/
theorem test_bge_not_taken :
    row (nextOf (step (counting v12 1 0 2 .free .free [(1, 1)]))) = ⟨2, 1, 0, .free, .free, [(1, 2)], none⟩ := by
  decide
theorem test_bge_taken :
    row (nextOf (step (counting v12 1 0 2 .free .free [(1, 2)]))) = ⟨1, 1, 0, .stalled, .free, [(1, 2)], none⟩ ∧
      row (nextOf (step (counting v12 1 1 1 .stalled .free [(1, 2)]))) =
        ⟨3, 1, 1, .free, .free, [(1, 0)], none⟩ := by decide
/-- `ble`: V11 cycles 2 (`ctl`), 8 (`taken`, counter 1) and 10 (`nt`, counter 2 above 1). -/
theorem test_ble_taken :
    row (nextOf (step (running v11 1 0 0 .free .free))) = ⟨1, 1, 0, .stalled, .free, [(1, 0)], none⟩ ∧
      row (nextOf (step (counting v11 1 1 1 .stalled .free [(1, 1)]))) =
        ⟨0, 1, 1, .free, .free, [(1, 2)], none⟩ := by decide
theorem test_ble_not_taken :
    row (nextOf (step (counting v11 1 0 1 .free .free [(1, 2)]))) = ⟨2, 1, 0, .free, .free, [(1, 0)], none⟩ := by
  decide
/-- Faults: V24 cycle 4, V25 cycle 2, V27 cycle 2, V29 cycle 4. The rest of the state is that before the cycle. -/
theorem test_faults :
    row (nextOf (step (running ["addi a1, a1, 1", "jal nowhere", "addi c3, c3, 1"] 1 1 1 .stalled .free))) =
        ⟨1, 1, 1, .stalled, .free, [], some (.unresolvedLabel 1)⟩ ∧
      row (nextOf (step (running ["addi a1, a1, 1", "bge x5, out", "out: addi c3, c3, 1"] 1 0 0 .free .free))) =
        ⟨1, 0, 0, .free, .free, [(1, 0)], some (.badThreshold 1)⟩ ∧
      row (nextOf (step (running ["nop", "addi a1, a1, 1", "addi b2, b2, 1"] 1 0 0 .free .free))) =
        ⟨1, 0, 0, .free, .free, [], some (.shortRecord 0)⟩ ∧
      row (nextOf (step (running ["addi a1, a1, 1", "bge 0", "addi c3, c3, 1"] 1 1 1 .stalled .free))) =
        ⟨1, 1, 1, .stalled, .free, [(1, 0)], some (.shortRecord 1)⟩ := by decide

/-! ### Witnesses: states and operands that meet the hypotheses of each statement -/

theorem advances_of {s : State} (h : executeUnit (writeBackUnit s) = .ok s.seen) : ExecuteAdvances s := by
  rcases executeUnit_cases s with ⟨h', -⟩ | ⟨-, h'⟩ | ⟨-, -, h'⟩
  · exact h'
  · rw [h'] at h
    have := congrArg State.executeStatus (Except.ok.inj h)
    cases this
  · rw [h'] at h; cases h

theorem reaches_of {s : State} {r : Record}
    (h : executeUnit (writeBackUnit s) = .ok s.seen ∧ dataHazard s.seen r = .ok false) : ReachesControl s r := by
  refine ⟨advances_of h.1, ?_⟩
  rcases dataHazard_cases s r with ⟨h', -⟩ | ⟨k, -, h'⟩ | ⟨k, -, h'⟩ | ⟨k, -, -, -, h'⟩
  · exact h'
  all_goals rw [h'] at h; exact absurd h.2 (by simp)

theorem stalls_of {s : State} {r : Record} (h : s.executeStatus = .free ∧ s.prog[s.execPos]? = some r ∧
    needsLatency r = true) : ExecuteStalls s := ⟨h.1, r, h.2⟩

theorem completes_of {i : Instr} {s : State}
    (h : isNext (exec i s) = true ∧ (nextOf (exec i s)).cycles = s.cycles + 1) :
    Completes i s (nextOf (exec i s)) := ⟨eq_next h.1, h.2⟩

theorem writesBack_of {s : State} {m : Text}
    (h : (s.prog[s.execPos]?).map Record.mnemonic = some m) : WritesBack s m := by
  cases hr : s.prog[s.execPos]? with
  | none => simp [hr] at h
  | some r => exact ⟨r, hr, by simpa [hr] using h⟩

theorem writesBackOther_of {s : State} {m m' : Text}
    (h : (s.prog[s.execPos]?).map Record.mnemonic = some m' ∧ m' ≠ m) : WritesBackOther s m := by
  obtain ⟨r, hr, hm⟩ := writesBack_of h.1
  exact ⟨r, hr, hm ▸ h.2⟩

theorem branchReads_of {s : State} {ops : List Text} {t c : Int}
    (h : (ops[0]?).bind parseInt = some t ∧ s.ctr.lookup s.fetchPos = some c) : BranchReads s ops t c := by
  cases hu : ops[0]? with
  | none => simp [hu] at h
  | some u => exact ⟨⟨u, hu, by simpa [hu] using h.1⟩, h.2⟩

theorem names_of {s : State} {ops : List Text} {k dst : Nat}
    (h : ((ops[k]?).bind fun l => s.sym.lookup l) = some dst ∧ dst < s.count) : Names s ops k dst := by
  cases hu : ops[k]? with
  | none => simp [hu] at h
  | some u => exact ⟨⟨u, hu, by simpa [hu] using h.1⟩, h.2⟩

/-- The instruction of a line, without its end. -/
def instrOf (line : String) : Instr :=
  match decode (bytesOf line ++ [0x0D#8]) with
  | .ok i => i
  | .error _ => .jal none []

theorem witness_DecodeOfEncode : (instrOf "l: bge 2, out").wellFormed = true := by decide

theorem witness_EolCharIsNotLookedAt : ∃ (i : Instr) (eol : Byte), i.wellFormed = true ∧
    eol ≠ Config.tokenSep ∧ eol ≠ Config.labelTerm ∧ eol ≠ Config.operandSep :=
  ⟨instrOf "jal end", 0x58#8, by decide⟩

theorem witness_DecodedIsWellFormed : ∃ (line : Text) (i : Instr),
    Config.lineSep ∉ line ∧ decode line = .ok i :=
  ⟨bytesOf "x1,: add a, b\r", .generic (some (bytesOf "x1,")) (bytesOf "add") (texts ["a", "b"]), by decide⟩

/-- A text with a label, a `jal`, a counted branch and a generic line. -/
def sample : List String := ["l: ble 0, l", "jal l", "add a, b"]

def sampleTables : Tables :=
  ⟨[⟨some (bytesOf "l"), bytesOf "ble", texts ["0", "l"]⟩, ⟨none, bytesOf "jal", texts ["l"]⟩,
    ⟨none, bytesOf "add", texts ["a", "b"]⟩], [(bytesOf "l", 0)], [(0, 0)]⟩

theorem witness_LoadMakesOneRecordPerLine : load (.text (src sample)) = .ok sampleTables ∧
    (linesOf (src sample))[2]? = some (bytesOf "add a, b\r") := by decide

theorem witness_LoadedSymbolTable : load (.text (src sample)) = .ok sampleTables ∧
    sampleTables.sym.lookup (bytesOf "l") = some 0 := by decide

theorem witness_LoadedCounters : load (.text (src sample)) = .ok sampleTables ∧
    sampleTables.prog[0]?.map isCountedBranch = some true ∧ sampleTables.ctr.lookup 0 = some 0 := by decide

theorem witness_DuplicateLabelFaults : ∃ (b : Text) (pre post : List Text) (line l : Text) (t : Tables),
    linesOf b = pre ++ line :: post ∧ loadLines 0 pre Tables.empty = .ok t ∧ lineLabel line = some l ∧
      ∃ line' ∈ pre, lineLabel line' = some l :=
  ⟨src ["l: add a, b", "l: add c, d", "nop"], texts ["l: add a, b\r"], texts ["nop\r"], bytesOf "l: add c, d\r",
    bytesOf "l", ⟨[⟨some (bytesOf "l"), bytesOf "add", texts ["a", "b"]⟩], [(bytesOf "l", 0)], []⟩, by decide⟩

theorem witness_LabelOnlyLineFaults : ∃ (b : Text) (pre post : List Text) (line l : Text) (t : Tables),
    linesOf b = pre ++ line :: post ∧ loadLines 0 pre Tables.empty = .ok t ∧ lineLabel line = some l ∧
      (∀ line' ∈ pre, lineLabel line' ≠ some l) ∧ Config.tokenSep ∉ line :=
  ⟨src ["l: add a, b", "name:"], texts ["l: add a, b\r"], [], bytesOf "name:\r", bytesOf "name",
    ⟨[⟨some (bytesOf "l"), bytesOf "add", texts ["a", "b"]⟩], [(bytesOf "l", 0)], []⟩, by decide⟩

theorem witness_LoaderFaultStopsAtReset :
    load (.text (src ["name:", "add a, b"])) = .error (.labelOnlyLine 0) := by decide

theorem witness_ResetGivesTheStatedValues : load (.text (src sample)) = .ok sampleTables := by decide

theorem witness_WriteBackCopiesCursor : ∃ i s t, Completes i s t :=
  ⟨instrOf "jal end", running v1 2 1 0 .free .free, _, completes_of (by decide)⟩

theorem witness_OnlyWriteBackFreesFetch : ∃ i s t, Completes i s t ∧ s.fetchStatus = .stalled ∧
    s.writebackPos ≠ s.execPos :=
  ⟨instrOf "jal end", running v1 2 2 1 .stalled .free, _, completes_of (by decide), by decide⟩

/-- The stalled clause, and the two sides of the free clause. -/
theorem witness_ExecuteUnitCases :
    (∃ i s t, Completes i s t ∧ s.executeStatus = .stalled) ∧
    (∃ i s t r, Completes i s t ∧ s.executeStatus = .free ∧ s.prog[s.execPos]? = some r ∧
      needsLatency r = true) ∧
    ∃ i s t r, Completes i s t ∧ s.executeStatus = .free ∧ s.prog[s.execPos]? = some r ∧
      needsLatency r = false :=
  ⟨⟨instrOf "add c1, c2, c3", running v5 2 1 1 .stalled .stalled, _, completes_of (by decide), by decide⟩,
    ⟨instrOf "add c1, c2, c3", running v5 2 1 0 .free .free, _, (instrOf "lw b1, 0(b2)").record,
      completes_of (by decide), by decide⟩,
    ⟨instrOf "lw b1, 0(b2)", running v5 1 0 0 .free .free, _, (instrOf "add a1, a2, a3").record,
      completes_of (by decide), by decide⟩⟩

/-- Once with a load, once with a hexadecimal last operand, at `fetch_pos = 0` and at `last`. -/
theorem witness_LatencyCycle : ExecuteStalls (running v5 2 1 0 .free .free) ∧
    ExecuteStalls (running ["addi b1, b2, 0x10", "add c1, c2"] 0 0 0 .free .free) ∧
    ExecuteStalls (running ["add a1, a2", "sw b1, 0(b2)"] 1 1 1 .free .free) :=
  ⟨stalls_of (r := (instrOf "lw b1, 0(b2)").record) (by decide),
    stalls_of (r := (instrOf "addi b1, b2, 0x10").record) (by decide),
    stalls_of (r := (instrOf "sw b1, 0(b2)").record) (by decide)⟩

/-- After a latency cycle, and after a control stall that is released only in the second cycle. -/
theorem witness_StallIsReleasedWithinTwoCycles :
    (∃ i j s t u, Completes i s t ∧ t.fetchStatus = .stalled ∧ Completes j t u ∧
      t.executeStatus = .stalled) ∧
    ∃ i j s t u, Completes i s t ∧ t.fetchStatus = .stalled ∧ Completes j t u ∧
      t.writebackPos ≠ t.execPos :=
  ⟨⟨instrOf "add c1, c2, c3", instrOf "add c1, c2, c3", running v5 2 1 0 .free .free, _, _,
      completes_of (by decide), by decide, completes_of (by decide), by decide⟩,
    ⟨instrOf "jal end", instrOf "jal end", running v1 2 1 0 .free .free, _, _,
      completes_of (by decide), by decide, completes_of (by decide), by decide⟩⟩

theorem witness_DataHazardStalls : ∃ (i : Instr) (s : State) (k : Nat), ExecuteAdvances s ∧ ScanStallsAt s i.record k := by
  refine ⟨instrOf "end: addi x3, x3, 1", running v1 3 2 2 .free .free, 2, advances_of (by decide), by decide,
    by decide, fun j h1 h2 => ?_, (instrOf "jal end").record, bytesOf "end", by decide⟩
  exact absurd (Nat.lt_of_le_of_lt h1 h2) (by decide)

theorem witness_StickyFlagHoldsFetch : ∃ (i : Instr) (s : State), ReachesControl s i.record ∧ ControlPasses i s ∧
    s.fetchStatus = .stalled ∧ s.writebackPos ≠ s.execPos :=
  ⟨instrOf "jal end", running v1 2 2 1 .stalled .free, reaches_of (by decide), writesBack_of (by decide),
    by decide⟩

theorem witness_LastIsNeverLeft : ∃ (i : Instr) (s : State), ReachesControl s i.record ∧ ControlPasses i s ∧ FetchFreed s ∧
    s.fetchPos = s.last :=
  ⟨instrOf "jal top", running ["top: addi a1, a1, 1", "jal top"] 1 1 1 .stalled .free, reaches_of (by decide),
    writesBack_of (by decide), by decide⟩

/-- A sequential advance, a jump and a counter update. -/
theorem witness_FetchMovesOnlyWhenFree :
    (∃ i s t, Completes i s t ∧ t.fetchPos = s.fetchPos + 1) ∧
    (∃ i s t, Completes i s t ∧ t.fetchPos < s.fetchPos) ∧ ∃ i s t, Completes i s t ∧ t.ctr ≠ s.ctr :=
  ⟨⟨instrOf "addi x1, x1, 1", running v1 0 0 0 .free .free, _, completes_of (by decide), by decide⟩,
    ⟨instrOf "jal top", running v12 2 2 2 .stalled .free, _, completes_of (by decide), by decide⟩,
    ⟨instrOf "bge 2, out", running v12 1 0 0 .free .free, _, completes_of (by decide), by decide⟩⟩

/-- One state for each of the three constructors, the first at `fetch_pos = last - 1`. -/
theorem witness_OrdinaryInstructionsAdvance :
    (∃ l m ops s, ReachesControl s (Instr.generic l m ops).record ∧ FetchFreed s ∧ s.fetchPos ≠ s.last) ∧
    (∃ l ops s, ReachesControl s (Instr.lw l ops).record ∧ FetchFreed s ∧ s.fetchPos ≠ s.last) ∧
    ∃ l ops s, ReachesControl s (Instr.sw l ops).record ∧ FetchFreed s ∧ s.fetchPos ≠ s.last :=
  ⟨⟨none, bytesOf "add", texts ["a1", "a2", "a3"], running v3 0 0 0 .free .free, reaches_of (by decide),
      by decide⟩,
    ⟨none, texts ["b1", "0(b2)"], running v5 1 0 0 .free .free, reaches_of (by decide), by decide⟩,
    ⟨none, texts ["b1", "0(b2)"], running v7 1 0 0 .free .free, reaches_of (by decide), by decide⟩⟩

theorem witness_JalJumps : ∃ l ops s dst, ReachesControl s (Instr.jal l ops).record ∧
    WritesBack s Config.mnJump ∧ FetchFreed s ∧ s.fetchPos ≠ s.last ∧ Names s ops 0 dst :=
  ⟨none, texts ["end"], running v1 2 2 2 .stalled .free, 3, reaches_of (by decide), writesBack_of (by decide),
    by decide, by decide, names_of (by decide)⟩

theorem witness_JalControlStall :
    (∃ l ops s, ReachesControl s (Instr.jal l ops).record ∧ WritesBackOther s Config.mnJump) ∧
    ∃ l ops s t, ReachesControl s (Instr.jal l ops).record ∧ WritesBack s Config.mnJump ∧ FetchFreed s ∧
      Completes (.jal l ops) s t :=
  ⟨⟨none, texts ["end"], running v1 2 1 0 .free .free, reaches_of (by decide),
      writesBackOther_of (m' := bytesOf "addi") (by decide)⟩,
    ⟨none, texts ["end"], running v1 2 2 2 .stalled .free, _, reaches_of (by decide), writesBack_of (by decide),
      by decide, completes_of (by decide)⟩⟩

theorem witness_ForwardJumpHitsItsOwnLabel : ∃ s l target ops r,
    s.prog[s.execPos]? = some (Instr.jal l (target :: ops)).record ∧ s.execPos < s.fetchPos ∧
      s.prog[s.fetchPos]? = some r ∧ r.label = some target ∧ ExecuteAdvances s :=
  ⟨running v1 3 2 2 .free .free, none, bytesOf "end", [], (instrOf "end: addi x3, x3, 1").record, by decide,
    by decide, by decide, by decide, advances_of (by decide)⟩

/-- The counter one below the threshold. -/
theorem witness_BgeNotTaken : ∃ l ops s t c, ReachesControl s (Instr.bge l ops).record ∧
    BranchReads s ops t c ∧ c + 1 = t ∧ FetchFreed s ∧ s.fetchPos ≠ s.last ∧
      ∃ r, s.prog[s.execPos]? = some r :=
  ⟨none, texts ["2", "out"], counting v12 1 0 2 .free .free [(1, 1)], 2, 1, reaches_of (by decide),
    branchReads_of (by decide), by decide, by decide, by decide, (instrOf "top: addi a1, a1, 1").record,
    by decide⟩

/-- The counter at the threshold. -/
theorem witness_BgeTaken : ∃ l ops s t c dst, ReachesControl s (Instr.bge l ops).record ∧
    BranchReads s ops t c ∧ t = c ∧ WritesBack s Config.mnBr1 ∧ FetchFreed s ∧ s.fetchPos ≠ s.last ∧
      Names s ops 1 dst :=
  ⟨none, texts ["2", "out"], counting v12 1 1 1 .stalled .free [(1, 2)], 2, 2, 3, reaches_of (by decide),
    branchReads_of (by decide), by decide, writesBack_of (by decide), by decide, by decide,
    names_of (by decide)⟩

/-- The counter at the threshold, released and not, and one below it. -/
theorem witness_BgeControlStall :
    (∃ l ops s t c, ReachesControl s (Instr.bge l ops).record ∧ BranchReads s ops t c ∧ t = c ∧
      WritesBackOther s Config.mnBr1) ∧
    (∃ l ops s t c u, ReachesControl s (Instr.bge l ops).record ∧ BranchReads s ops t c ∧ t = c ∧
      WritesBack s Config.mnBr1 ∧ FetchFreed s ∧ Completes (.bge l ops) s u) ∧
    ∃ l ops s t c u, ReachesControl s (Instr.bge l ops).record ∧ BranchReads s ops t c ∧ c + 1 = t ∧
      FetchFreed s ∧ Completes (.bge l ops) s u :=
  ⟨⟨none, texts ["2", "out"], counting v12 1 0 2 .free .free [(1, 2)], 2, 2, reaches_of (by decide),
      branchReads_of (by decide), by decide, writesBackOther_of (m' := bytesOf "addi") (by decide)⟩,
    ⟨none, texts ["2", "out"], counting v12 1 1 1 .stalled .free [(1, 2)], 2, 2, _, reaches_of (by decide),
      branchReads_of (by decide), by decide, writesBack_of (by decide), by decide, completes_of (by decide)⟩,
    ⟨none, texts ["2", "out"], counting v12 1 0 2 .free .free [(1, 1)], 2, 1, _, reaches_of (by decide),
      branchReads_of (by decide), by decide, by decide, completes_of (by decide)⟩⟩

/-- The counter at the threshold. -/
theorem witness_BleTaken : ∃ l ops s t c dst, ReachesControl s (Instr.ble l ops).record ∧
    BranchReads s ops t c ∧ c = t ∧ WritesBack s Config.mnBr2 ∧ FetchFreed s ∧ s.fetchPos ≠ s.last ∧
      Names s ops 1 dst :=
  ⟨none, texts ["1", "loop"], counting v11 1 1 1 .stalled .free [(1, 1)], 1, 1, 0, reaches_of (by decide),
    branchReads_of (by decide), by decide, writesBack_of (by decide), by decide, by decide,
    names_of (by decide)⟩

/-- The counter one above the threshold. -/
theorem witness_BleNotTaken : ∃ l ops s t c, ReachesControl s (Instr.ble l ops).record ∧
    BranchReads s ops t c ∧ t + 1 = c ∧ FetchFreed s ∧ s.fetchPos ≠ s.last ∧
      ∃ r, s.prog[s.execPos]? = some r :=
  ⟨none, texts ["1", "loop"], counting v11 1 0 1 .free .free [(1, 2)], 1, 2, reaches_of (by decide),
    branchReads_of (by decide), by decide, by decide, by decide, (instrOf "loop: addi a1, a1, 1").record,
    by decide⟩

/-- The counter at the threshold, released and not, and one above it. -/
theorem witness_BleControlStall :
    (∃ l ops s t c, ReachesControl s (Instr.ble l ops).record ∧ BranchReads s ops t c ∧ c = t ∧
      WritesBackOther s Config.mnBr2) ∧
    (∃ l ops s t c u, ReachesControl s (Instr.ble l ops).record ∧ BranchReads s ops t c ∧ c = t ∧
      WritesBack s Config.mnBr2 ∧ FetchFreed s ∧ Completes (.ble l ops) s u) ∧
    ∃ l ops s t c u, ReachesControl s (Instr.ble l ops).record ∧ BranchReads s ops t c ∧ t + 1 = c ∧
      FetchFreed s ∧ Completes (.ble l ops) s u :=
  ⟨⟨none, texts ["1", "loop"], counting v11 1 0 1 .free .free [(1, 1)], 1, 1, reaches_of (by decide),
      branchReads_of (by decide), by decide, writesBackOther_of (m' := bytesOf "addi") (by decide)⟩,
    ⟨none, texts ["1", "loop"], counting v11 1 1 1 .stalled .free [(1, 1)], 1, 1, _, reaches_of (by decide),
      branchReads_of (by decide), by decide, writesBack_of (by decide), by decide, completes_of (by decide)⟩,
    ⟨none, texts ["1", "loop"], counting v11 1 0 1 .free .free [(1, 2)], 1, 2, _, reaches_of (by decide),
      branchReads_of (by decide), by decide, by decide, completes_of (by decide)⟩⟩

/-- Every bounded clause at both ends of its range. -/
theorem witness_BranchOutcomesArePeriodic :
    ((fun c => br1Next c 1)^[0] 0 = 0 ∧ br1Taken 0 1 = false) ∧ (br1Taken 1 1 = true ∧ br1Next 1 1 = 0) ∧
    (br1Taken 0 0 = true ∧ br1Next 0 0 = 0) ∧ (br2Taken 0 0 = true ∧ br2Next 0 0 = 1) ∧
    (br2Taken 1 0 = false ∧ br2Next 1 0 = 0) ∧ (br2Taken 0 (-1) = false ∧ br2Next 0 (-1) = 0) := by
  decide

/-- One state for each of the three transfers. -/
theorem witness_UnresolvedLabelFaults :
    (∃ (s : State) (l : Option Text) (ops : List Text), WritesBack s Config.mnJump ∧
      ReachesControl s (Instr.jal l ops).record ∧ FetchFreed s ∧ s.fetchPos ≠ s.last ∧
      ∃ label, ops[0]? = some label ∧ s.sym.lookup label = none) ∧
    (∃ (s : State) (l : Option Text) (ops : List Text) (t c : Int), BranchReads s ops t c ∧ t ≤ c ∧
      WritesBack s Config.mnBr1 ∧ ReachesControl s (Instr.bge l ops).record ∧ FetchFreed s ∧
      s.fetchPos ≠ s.last ∧ ∃ label, ops[1]? = some label ∧ s.sym.lookup label = none) ∧
    ∃ (s : State) (l : Option Text) (ops : List Text) (t c : Int), BranchReads s ops t c ∧ c ≤ t ∧
      WritesBack s Config.mnBr2 ∧ ReachesControl s (Instr.ble l ops).record ∧ FetchFreed s ∧
      s.fetchPos ≠ s.last ∧ ∃ label, ops[1]? = some label ∧ s.sym.lookup label = none :=
  ⟨⟨running ["jal nowhere", "addi c3, c3, 1"] 0 0 0 .free .free, none, texts ["nowhere"],
      writesBack_of (by decide), reaches_of (by decide), by decide, by decide, bytesOf "nowhere", by decide⟩,
    ⟨running ["bge 0, nowhere", "addi c3, c3, 1"] 0 0 0 .free .free, none, texts ["0", "nowhere"], 0, 0,
      branchReads_of (by decide), by decide, writesBack_of (by decide), reaches_of (by decide), by decide,
      by decide, bytesOf "nowhere", by decide⟩,
    ⟨running ["ble 0, nowhere", "addi c3, c3, 1"] 0 0 0 .free .free, none, texts ["0", "nowhere"], 0, 0,
      branchReads_of (by decide), by decide, writesBack_of (by decide), reaches_of (by decide), by decide,
      by decide, bytesOf "nowhere", by decide⟩⟩

/-- One state for each kind, the second with `fetch_pos = last`. -/
theorem witness_BadThresholdFaults :
    (∃ s, ReachesControl s (Instr.bge none (texts ["x5", "out"])).record ∧ parseInt (bytesOf "x5") = none) ∧
    ∃ s, ReachesControl s (Instr.ble none (texts ["", "out"])).record ∧ parseInt [] = none ∧
      s.fetchPos = s.last :=
  ⟨⟨running ["bge x5, out", "out: addi c3, c3, 1"] 0 0 0 .free .free, reaches_of (by decide), by decide⟩,
    ⟨running ["out: addi c3, c3, 1", "ble , out"] 1 0 0 .free .free, reaches_of (by decide), by decide,
      by decide⟩⟩

theorem witness_ShortRecordScanFaults : ∃ (i : Instr) (s : State) (k : Nat), ExecuteAdvances s ∧ ScanShortAt s i.record k := by
  refine ⟨instrOf "addi a1, a1, 1", running ["nop", "addi a1, a1, 1", "addi b2, b2, 1"] 1 0 0 .free .free, 0,
    advances_of (by decide), by decide, by decide, fun j h1 h2 => ?_, (instrOf "nop").record, by decide⟩
  exact absurd (Nat.lt_of_le_of_lt h1 h2) (by decide)

/-- One state for each of the five cases. -/
theorem witness_MissingOperandFaults :
    (∃ s, ReachesControl s (Instr.bge none []).record) ∧
    (∃ s, ReachesControl s (Instr.ble none []).record) ∧
    (∃ s, ReachesControl s (Instr.jal none []).record ∧ FetchFreed s ∧ s.fetchPos ≠ s.last ∧
      WritesBack s Config.mnJump) ∧
    (∃ s u, ReachesControl s (Instr.bge none [u]).record ∧ FetchFreed s ∧ s.fetchPos ≠ s.last ∧
      BranchReads s [u] 0 0 ∧ WritesBack s Config.mnBr1) ∧
    ∃ s u, ReachesControl s (Instr.ble none [u]).record ∧ FetchFreed s ∧ s.fetchPos ≠ s.last ∧
      BranchReads s [u] 0 0 ∧ WritesBack s Config.mnBr2 :=
  ⟨⟨running ["bge", "nop"] 0 0 0 .free .free, reaches_of (by decide)⟩,
    ⟨running ["ble", "nop"] 0 0 0 .free .free, reaches_of (by decide)⟩,
    ⟨running ["jal", "nop"] 0 0 0 .free .free, reaches_of (by decide), by decide, by decide,
      writesBack_of (by decide)⟩,
    ⟨running ["bge 0", "nop"] 0 0 0 .free .free, bytesOf "0", reaches_of (by decide), by decide, by decide,
      branchReads_of (by decide), writesBack_of (by decide)⟩,
    ⟨running ["ble 0", "nop"] 0 0 0 .free .free, bytesOf "0", reaches_of (by decide), by decide, by decide,
      branchReads_of (by decide), writesBack_of (by decide)⟩⟩

/-- Both sides: a completed cycle, and a fault entry. -/
theorem witness_FaultEntryIsPrecise :
    (∃ i s t, exec i s = .next t ∧ t.cycles = s.cycles + 1) ∧
    ∃ i s t, exec i s = .next t ∧ t.fault = some (.shortRecord 0) :=
  ⟨⟨instrOf "addi x1, x1, 1", running v1 0 0 0 .free .free, _, eq_next (by decide), by decide⟩,
    ⟨instrOf "bge", running ["bge", "nop"] 0 0 0 .free .free, _, eq_next (by decide), by decide⟩⟩

theorem witness_HaltedEngineTakesNoCycle :
    ∃ s c, State.fault s = some c := ⟨State.reset.raise (.dupLabel 1), .dupLabel 1, rfl⟩

/-- An unknown mnemonic that is accepted, in a state where it is performed. -/
theorem witness_NoInstructionIsRefused : ∃ (l : Option Text) (m : Text) (ops : List Text) (s : State),
    (labelOk l && tokenOk m && headOk l m && ops.all tokenOk) = true ∧
      m ∉ ["lw", "sw", "jal", "bge", "ble"].map bytesOf ∧ ReachesControl s ⟨l, m, ops⟩ ∧ FetchFreed s ∧
      s.fetchPos ≠ s.last :=
  ⟨none, bytesOf "fence.i", [], running ["fence.i", "nop"] 0 0 0 .free .free, by decide, by decide,
    reaches_of (by decide), by decide, by decide⟩

theorem witness_StepRunsFetchedInstruction : ∃ (s : State) (i : Instr), s.fault = none ∧ s.atEnd = false ∧
    i.wellFormed = true ∧ s.prog[s.fetchPos]? = some i.record :=
  ⟨running v1 2 1 0 .free .free, instrOf "jal end", by decide⟩

theorem witness_DoneTakesNoCycle : ∃ s : State, s.done = true ∧ 0 < s.count :=
  ⟨running v1 3 3 3 .stalled .free, by decide⟩

theorem witness_PlacedWordRuns : decodeTableWord 40 0x0D6120776C = some (.lw none [bytesOf "a"]) := by decide

theorem witness_ProgramIsNeverWritten : ∃ s t, step s = .next t ∧ t ≠ s :=
  ⟨running v1 0 0 0 .free .free, _, eq_next (by decide), by decide⟩

/-- A `bge` at its threshold and a `ble` above it that write their counters, and an instruction of another
class. -/
theorem witness_CounterFrame :
    (∃ l ops s t, exec (.bge l ops) s = .next t ∧ BranchReads s ops 2 2 ∧ t.ctr ≠ s.ctr) ∧
    (∃ l ops s t, exec (.ble l ops) s = .next t ∧ BranchReads s ops 1 2 ∧ t.ctr ≠ s.ctr) ∧
    ∃ i s t, exec i s = .next t ∧ (∀ l ops, i ≠ .bge l ops ∧ i ≠ .ble l ops) ∧ s.ctr ≠ [] :=
  ⟨⟨none, texts ["2", "out"], counting v12 1 1 1 .stalled .free [(1, 2)], _, eq_next (by decide),
      branchReads_of (by decide), by decide⟩,
    ⟨none, texts ["1", "loop"], counting v11 1 0 1 .free .free [(1, 2)], _, eq_next (by decide),
      branchReads_of (by decide), by decide⟩,
    ⟨.jal none (texts ["top"]), running v12 2 1 0 .free .free, _, eq_next (by decide),
      fun _ _ => ⟨by simp, by simp⟩, by decide⟩⟩

theorem witness_reachable_step {s : State} (h : Reachable s) (hn : isNext (step s) = true) :
    Reachable (nextOf (step s)) := .cycle s _ h (eq_next hn)

/-- The state a text starts from. -/
def start (lines : List String) : State := State.resetWith (.text (src lines))

/-- The state after two more steps. -/
def twice (s : State) : State := nextOf (step (nextOf (step s)))

theorem witness_reachable_twice {s : State} (h : Reachable s)
    (hn : isNext (step s) = true ∧ isNext (step (nextOf (step s))) = true) : Reachable (twice s) :=
  witness_reachable_step (witness_reachable_step h hn.1) hn.2

/-- A running state with the invariant, in which a step changes the state. -/
theorem witness_StepKeepsInvariant : ∃ s t : State, s.Inv ∧ step s = .next t ∧ t ≠ s := by
  refine ⟨running v3 0 0 0 .free .free, _, ⟨by decide, by decide, ?_, ?_, by decide, by decide⟩,
    eq_next (by decide), by decide⟩
  · intro i r hr hb
    have hp : ∀ r ∈ (running v3 0 0 0 .free .free).prog, isCountedBranch r = false := by decide
    rw [hp r (List.mem_of_getElem? hr)] at hb
    cases hb
  · intro i r c _ hc
    have he : (running v3 0 0 0 .free .free).ctr = [] := by decide
    rw [he] at hc
    cases hc

theorem witness_InvariantFaultIsUnreachable : ∃ s, Reachable s ∧ s.fault = some (.shortRecord 0) :=
  ⟨nextOf (step (start ["bge", "nop"])), witness_reachable_step (.start _) (by decide), by decide⟩

theorem witness_WellFormedSourceNeverFaults :
    wellFormedText (src ["top: addi a1, a1, 0x1", "bge 2, out", "jal top", "out: sw c3, 0(c4)"]) = true := by decide

/-- A state with the lag at its bounds, in which a step changes the state. -/
theorem witness_StepKeepsLag : ∃ s t : State, straightLine s.prog = true ∧ s.Lag ∧ step s = .next t ∧ t ≠ s := by
  refine ⟨nextOf (step (start v5)), _, by decide, ⟨by decide, by decide, by decide⟩, eq_next (by decide),
    by decide⟩

theorem witness_StraightLineLowerBound : ∃ s, Reachable s ∧ straightLine s.prog = true ∧ 2 ≤ s.count ∧
    s.done = true :=
  ⟨nextOf (step (twice (start v3))),
    witness_reachable_step (witness_reachable_twice (.start _) (by decide)) (by decide), by decide⟩

/-- A `jal` at index 0 to the last index, the fewest cycles there are. -/
theorem witness_AtLeastThreeCycles : ∃ s, Reachable s ∧ 2 ≤ s.count ∧ s.done = true :=
  ⟨nextOf (step (twice (start ["jal far", "far: addi c3, c3, 1"]))),
    witness_reachable_step (witness_reachable_twice (.start _) (by decide)) (by decide), by decide⟩

theorem witness_HazardFreeBaseline : ∃ (b : Text) (t : Tables), load (.text b) = .ok t ∧ hazardFree t.prog ∧
    2 ≤ t.prog.length := by
  refine ⟨src v3, ⟨v3.map fun l => (instrOf l).record, [], []⟩, by decide,
    ⟨by decide, by decide, fun k r r' d h1 h2 h3 => ?_⟩, by decide⟩
  obtain ⟨hk, -⟩ := List.getElem?_eq_some_iff.1 h2
  obtain rfl : k = 0 := by simp [v3] at hk; omega
  have e1 : r = (instrOf "add a1, a2, a3").record := by simpa [v3] using h1.symm
  have e2 : r' = (instrOf "add b1, b2, b3").record := by simpa [v3] using h2.symm
  have e3 : some d = some (bytesOf "a1") := by rw [← h3, e1]; decide
  rw [e2, Option.some.inj e3]
  decide

end Sys2Proof.Tests
end

section
/-! ### Texts (00_scope.md R7) -/

namespace Sys2Proof

/-- Settles O7: by `containsText_iff`, `containsText` decides the list library's `u <:+: t`, which is
occurrence at an offset with the equation read from right to left. -/
theorem containsIsOccurrence : Obligations.ContainsIsOccurrence := by
  intro t u
  calc containsText t u = true
    _ ↔ u <:+: t := containsText_iff t u
    _ ↔ ∃ a b : Text, t = a ++ u ++ b := exists₂_congr fun _ _ => eq_comm

end Sys2Proof
end

section
/-!
### The state (10_state.md): frame and invariant of a step

`State.Inv` is kept by each thing `exec_cases` says a cycle can do: a fault other than `F_INVARIANT`, a latency
cycle, a cycle in which fetch stays, and a performed instruction, which is a counter update followed by a move.
-/

namespace Sys2Proof.Machine

/-! #### The tables no cycle writes -/

/-- A cycle writes neither the records nor the symbols, whatever it does. -/
theorem exec_frame {i : Instr} {s t : State} (h : exec i s = .next t) :
    t.prog = s.prog ∧ t.sym = s.sym := by
  rcases exec_cases i s with ⟨c, he, -⟩ | ⟨-, he⟩ | ⟨fs, -, he, -⟩ | ⟨dst, ctr, -, he, -⟩ <;>
    · obtain rfl := next_inj (he.symm.trans h)
      exact ⟨rfl, rfl⟩

/-! #### What a performed instruction reads and writes, within bounds -/

/-- A symbol value of a state in canonical form is inside the program. -/
theorem Memory.lookup_sym_lt {s : State} (h : Memory.wf s = true) {l : Text} {dst : Nat}
    (hl : s.sym.lookup l = some dst) : dst < s.count := by
  obtain ⟨-, -, hsym, -, -⟩ := (Memory.wf_iff s).1 h
  exact hsym (l, dst) (mem_of_lookup hl)

/-- An instruction performed before `last` goes to an index of the program. -/
theorem resolves_dst_lt {i : Instr} {s : State} {dst : Nat} {ctr : List (Nat × Int)}
    (h : Resolves i s dst ctr) (hf : s.fetchPos < s.count) (hl : s.fetchPos ≠ s.last) :
    dst < s.count := by
  rcases resolves_dst h with rfl | ⟨-, -, hlt⟩
  · unfold State.last at hl
    omega
  · exact hlt

theorem counterBound_bge {l : Option Text} {ops : List Text} {u : Text} {t : Int}
    (hu : ops[0]? = some u) (ht : parseInt u = some t) :
    counterBound (Instr.bge l ops).record = max t 0 := by
  simp [counterBound, Instr.record, classOf_mnemonics, hu, ht]

theorem counterBound_ble {l : Option Text} {ops : List Text} {u : Text} {t : Int}
    (hu : ops[0]? = some u) (ht : parseInt u = some t) :
    counterBound (Instr.ble l ops).record = max (t + 1) 0 := by
  simp [counterBound, Instr.record, classOf_mnemonics, hu, ht]

/-- A performed instruction leaves the counters, or updates its own counter, which then is in the range of
10_state.md R19 if it was not negative before. -/
theorem resolves_counter_range {i : Instr} {s : State} {dst : Nat} {ctr : List (Nat × Int)}
    (h : Resolves i s dst ctr) :
    ctr = s.ctr ∨ ∃ c v, s.ctr.lookup s.fetchPos = some c ∧ ctr = putCtr s.fetchPos v s.ctr ∧
      (0 ≤ c → 0 ≤ v ∧ v ≤ counterBound i.record) := by
  cases i with
  | generic => exact .inl h.2
  | lw => exact .inl h.2
  | sw => exact .inl h.2
  | jal => exact .inl h.2
  | bge l ops =>
    obtain ⟨t, c, ⟨⟨u, hu, ht⟩, hc⟩, hcase⟩ := h
    rw [counterBound_bge hu ht]
    obtain ⟨-, -, hctr⟩ | ⟨hlt, -, hctr⟩ := hcase
    · exact .inr ⟨c, 0, hc, hctr, by omega⟩
    · exact .inr ⟨c, c + 1, hc, hctr, by omega⟩
  | ble l ops =>
    obtain ⟨t, c, ⟨⟨u, hu, ht⟩, hc⟩, hcase⟩ := h
    rw [counterBound_ble hu ht]
    obtain ⟨hle, -, hctr⟩ | ⟨-, -, hctr⟩ := hcase
    · exact .inr ⟨c, c + 1, hc, hctr, by omega⟩
    · exact .inr ⟨c, 0, hc, hctr, by omega⟩

/-! #### The invariant under each effect of a cycle -/

/-- Under the invariant none of the model's own checks fails in a cycle of the fetched instruction
(60_exceptions.md R126). -/
theorem State.Inv.raises_ne_invariant {s : State} {r : Record} {c : Cause} (h : s.Inv)
    (hr : s.prog[s.fetchPos]? = some r) (hc : Raises r.instr s c) : c ≠ .invariant := by
  have hfetch : s.fetchPos < s.count := (List.getElem?_eq_some_iff.1 hr).1
  obtain ⟨-, hexec, -⟩ := h.cursors (by omega)
  have outside : ∀ k, s.prog[k]? = none → s.count ≤ k := fun _ => List.getElem?_eq_none_iff.1
  rcases hc with ⟨hn, -⟩ | ⟨k, -, hk, hn, -⟩ | ⟨k, ri, -, -, -, -, -, rfl⟩ | ⟨hi, hcheck⟩ |
    ⟨-, -, htarget⟩
  · exact absurd hexec (Nat.not_lt.2 (outside _ hn))
  · exact absurd (hk.trans hfetch) (Nat.not_lt.2 (outside _ hn))
  · simp
  · obtain ⟨-, rfl⟩ | ⟨u, -, -, rfl⟩ | ⟨ho, hn, -⟩ := hcheck
    · simp
    · simp
    · have hops : r.operands ≠ [] := by
        rw [record_instr_record] at ho
        intro he
        simp [he] at ho
      have := h.counters _ r hr (counts_record hi) hops
      simp [hn] at this
  · obtain ⟨-, rfl⟩ | ⟨l, -, ⟨-, rfl⟩ | ⟨dst, hl, hge, -⟩⟩ := htarget
    · simp
    · simp
    · exact absurd (Memory.lookup_sym_lt h.memory hl) hge

theorem State.Inv.raise {s : State} (h : s.Inv) {c : Cause} (hc : c ≠ .invariant) : (s.raise c).Inv where
  memory := Memory.wf_congr h.memory rfl rfl rfl
  cursors := h.cursors
  counters := h.counters
  ranges := h.ranges
  latency := h.latency
  sound := by simpa using hc

/-- A latency cycle establishes what the invariant says of one. -/
theorem State.Inv.latencyCycle {s : State} (h : s.Inv) (hs : ExecuteStalls s) :
    s.seenLatency.stallFetch.countCycle.Inv where
  memory := Memory.wf_congr h.memory rfl rfl rfl
  cursors hpos :=
    have ⟨hf, he, _⟩ := h.cursors hpos
    ⟨hf, he, he⟩
  counters := h.counters
  ranges := h.ranges
  latency _ := ⟨rfl, rfl, hs.2⟩
  sound := h.sound

theorem State.Inv.afterStay {s : State} (h : s.Inv) (fs : Status) : (s.afterStay fs).Inv where
  memory := Memory.wf_congr h.memory rfl rfl rfl
  cursors hpos :=
    have ⟨hf, he, _⟩ := h.cursors hpos
    ⟨hf, hf, he⟩
  counters := h.counters
  ranges := h.ranges
  latency := nofun
  sound := h.sound

theorem State.Inv.move {s : State} (h : s.Inv) {dst : Nat} (hd : dst < s.count) :
    (s.afterMove dst s.ctr).Inv where
  memory := Memory.wf_congr h.memory rfl rfl rfl
  cursors hpos :=
    have ⟨hf, he, _⟩ := h.cursors hpos
    ⟨hd, hf, he⟩
  counters := h.counters
  ranges := h.ranges
  latency := nofun
  sound := h.sound

/-- The update of a counter that is present, to a value in the range of its record. -/
theorem State.Inv.setCtr {s : State} (h : s.Inv) {i : Nat} {r : Record} {c v : Int}
    (hr : s.prog[i]? = some r) (hc : s.ctr.lookup i = some c) (hv : 0 ≤ v ∧ v ≤ counterBound r) :
    (s.setCtr i v).Inv where
  memory := Memory.setCtr_wf h.memory i v
  cursors := h.cursors
  counters k rk hk hb ho := lookup_putCtr_isSome i k v s.ctr (h.counters k rk hk hb ho)
  ranges k rk ck hk hck := by
    rw [State.setCtr_prog] at hk
    rw [State.setCtr_ctr] at hck
    by_cases hki : k = i
    · subst hki
      rw [lookup_putCtr_self hc] at hck
      obtain rfl := Option.some.inj hck
      obtain rfl := Option.some.inj (hr.symm.trans hk)
      exact hv
    · rw [lookup_putCtr_ne hki] at hck
      exact h.ranges k rk ck hk hck
  latency := h.latency
  sound := h.sound

/-- A performed instruction is the update of its own counter, if any, and then the move of the fetch cursor. -/
theorem State.Inv.afterMove {s : State} (h : s.Inv) {r : Record} {dst : Nat} {ctr : List (Nat × Int)}
    (hr : s.prog[s.fetchPos]? = some r) (hl : s.fetchPos ≠ s.last) (hres : Resolves r.instr s dst ctr) :
    (s.afterMove dst ctr).Inv := by
  have hdst : dst < s.count := resolves_dst_lt hres (List.getElem?_eq_some_iff.1 hr).1 hl
  rcases resolves_counter_range hres with rfl | ⟨c, v, hc, rfl, hv⟩
  · exact h.move hdst
  · rw [record_instr_record] at hv
    obtain ⟨hc0, -⟩ := h.ranges _ r c hr hc
    exact (h.setCtr hr hc (hv hc0)).move hdst

/-- The cycle of the fetched instruction keeps the invariant. -/
theorem State.Inv.exec {s t : State} (h : s.Inv) {r : Record} (hr : s.prog[s.fetchPos]? = some r)
    (he : exec r.instr s = .next t) : t.Inv := by
  rcases exec_cases r.instr s with ⟨c, hx, hc⟩ | ⟨hs, hx⟩ | ⟨fs, -, hx, -⟩ | ⟨dst, ctr, -, hx, -, hl, hres⟩ <;>
    obtain rfl := next_inj (hx.symm.trans he)
  case inl => exact h.raise (h.raises_ne_invariant hr hc)
  case inr.inl => exact h.latencyCycle hs
  case inr.inr.inl => exact h.afterStay fs
  case inr.inr.inr => exact h.afterMove hr hl hres

end Sys2Proof.Machine

namespace Sys2Proof

open Machine

/-- Settles O52: by `step_cases` a step keeps the state, finds the fetch cursor outside the program, which the
invariant excludes, or is the cycle of the fetched instruction, which keeps the invariant. -/
theorem stepKeepsInvariant : Obligations.StepKeepsInvariant := by
  intro s t hinv hstep
  obtain ⟨-, ⟨-, rfl⟩ | ⟨hrun, hnone, -⟩ | ⟨-, r, hr, hexec⟩⟩ := step_cases hstep
  · exact hinv
  · obtain ⟨hfetch, -, -⟩ := hinv.cursors (atEnd_eq_false hrun).1
    exact absurd hfetch (Nat.not_lt.2 (List.getElem?_eq_none_iff.1 hnone))
  · exact hinv.exec hr hexec

/-- Settles O49: a step keeps the state, writes the fault register only, or is a cycle, whose frame is
`exec_frame`. -/
theorem programIsNeverWritten : Obligations.ProgramIsNeverWritten := by
  intro s t hstep
  obtain ⟨-, ⟨-, rfl⟩ | ⟨-, -, rfl⟩ | ⟨-, r, -, hexec⟩⟩ := step_cases hstep
  · exact ⟨rfl, rfl⟩
  · exact ⟨State.raise_prog s _, State.raise_sym s _⟩
  · exact exec_frame hexec

end Sys2Proof
end

section
/-!
### The branch counters (20_memory.md R28, 41_fetch_unit.md R85)

A cycle leaves the fetch cursor and the counters alone, or it performs its instruction, which `Resolves` describes:
then at most the counter of `fetch_pos` is written, and for a counted branch the value written is that of R85.
-/

namespace Sys2Proof.Machine

/-- A cycle leaves both the fetch cursor and the counters, or performs its instruction. -/
theorem exec_stays_or_resolves {i : Instr} {s t : State} (h : exec i s = .next t) :
    (t.fetchPos = s.fetchPos ∧ t.ctr = s.ctr) ∨ Resolves i s t.fetchPos t.ctr := by
  rcases exec_cases i s with ⟨c, he, -⟩ | ⟨-, he⟩ | ⟨fs, -, he, -⟩ | ⟨dst, ctr, -, he, -, -, hres⟩ <;>
    obtain rfl := next_inj (he.symm.trans h)
  case inr.inr.inr => exact .inr hres
  all_goals exact .inl ⟨rfl, rfl⟩

/-- The only counter write of a cycle is that of a counted branch to its own counter. -/
theorem exec_ctr {i : Instr} {s t : State} (h : exec i s = .next t) :
    t.ctr = s.ctr ∨ (Counts i ∧ ∃ v, t.ctr = putCtr s.fetchPos v s.ctr) := by
  rcases exec_stays_or_resolves h with ⟨-, hctr⟩ | hres
  · exact .inl hctr
  · exact resolves_ctr hres

/-- A counted branch has one threshold and one counter. -/
theorem BranchReads.unique {s : State} {ops : List Text} {v c v' c' : Int}
    (h : BranchReads s ops v c) (h' : BranchReads s ops v' c') : v' = v ∧ c' = c := by
  obtain ⟨⟨u, hu, hv⟩, hc⟩ := h
  obtain ⟨⟨u', hu', hv'⟩, hc'⟩ := h'
  obtain rfl := Option.some.inj (hu.symm.trans hu')
  exact ⟨Option.some.inj (hv'.symm.trans hv), Option.some.inj (hc'.symm.trans hc)⟩

/-- The counter of a performed `bge` (41_fetch_unit.md R85). -/
theorem resolves_bge_counter {s : State} {l : Option Text} {ops : List Text} {v c : Int} {dst : Nat}
    {ctr : List (Nat × Int)} (hb : BranchReads s ops v c) (h : Resolves (.bge l ops) s dst ctr) :
    ctr.lookup s.fetchPos = some (if v ≤ c then 0 else c + 1) := by
  obtain ⟨v', c', hb', hcase⟩ := h
  obtain ⟨rfl, rfl⟩ := hb.unique hb'
  obtain ⟨-, hc⟩ := hb
  obtain ⟨hle, -, rfl⟩ | ⟨hlt, -, rfl⟩ := hcase
  · rw [lookup_putCtr_self hc, if_pos hle]
  · rw [lookup_putCtr_self hc, if_neg (Int.not_le.2 hlt)]

/-- The counter of a performed `ble` (41_fetch_unit.md R85). -/
theorem resolves_ble_counter {s : State} {l : Option Text} {ops : List Text} {v c : Int} {dst : Nat}
    {ctr : List (Nat × Int)} (hb : BranchReads s ops v c) (h : Resolves (.ble l ops) s dst ctr) :
    ctr.lookup s.fetchPos = some (if c ≤ v then c + 1 else 0) := by
  obtain ⟨v', c', hb', hcase⟩ := h
  obtain ⟨rfl, rfl⟩ := hb.unique hb'
  obtain ⟨-, hc⟩ := hb
  obtain ⟨hle, -, rfl⟩ | ⟨hlt, -, rfl⟩ := hcase
  · rw [lookup_putCtr_self hc, if_pos hle]
  · rw [lookup_putCtr_self hc, if_neg (Int.not_le.2 hlt)]

/-- The counter of `fetch_pos` after a cycle, from what performing the instruction makes of it. A performed branch
to itself that rewrites its counter with the same value is among the cycles that change neither cursor nor table. -/
theorem exec_own_counter {i : Instr} {s t : State} {c n : Int} (h : exec i s = .next t)
    (hc : s.ctr.lookup s.fetchPos = some c)
    (hn : Resolves i s t.fetchPos t.ctr → t.ctr.lookup s.fetchPos = some n) :
    t.ctr.lookup s.fetchPos = some (if t.fetchPos = s.fetchPos ∧ t.ctr = s.ctr then c else n) := by
  split_ifs with hsame
  · rw [hsame.2, hc]
  · exact hn ((exec_stays_or_resolves h).resolve_left hsame)

end Sys2Proof.Machine

namespace Sys2Proof

open Machine

/-- Settles O50: the frame is that of `exec_ctr`'s one write, the value of the own counter that of a performed
`bge` or `ble`. -/
theorem counterFrame : Obligations.CounterFrame := by
  intro i s t h
  refine ⟨?keys, ?others, ?notCounted, ?bge, ?ble⟩
  case keys =>
    obtain hctr | ⟨-, v, hctr⟩ := exec_ctr h <;> rw [hctr]
    exact putCtr_keys s.fetchPos v s.ctr
  case others =>
    intro k hk
    obtain hctr | ⟨-, v, hctr⟩ := exec_ctr h <;> rw [hctr]
    exact lookup_putCtr_ne hk v s.ctr
  case notCounted =>
    intro hi
    obtain hctr | ⟨⟨l, ops, hbr⟩, -⟩ := exec_ctr h
    · exact hctr
    · exact (hbr.elim (hi l ops).1 (hi l ops).2).elim
  case bge =>
    rintro l ops v c rfl hb
    exact exec_own_counter h hb.2 (resolves_bge_counter hb)
  case ble =>
    rintro l ops v c rfl hb
    exact exec_own_counter h hb.2 (resolves_ble_counter hb)

end Sys2Proof
end

section
/-!
### Decoding and encoding of a line (30_encoding.md R38 to R44)

The pieces of a written line are its tokens with the separators and the eol-char still attached. The decoder takes
both off again, whatever the eol-char is. In the other direction every token of a decoded record is part of a piece
of the line, so it has no space and no LF.
-/

namespace Sys2Proof

/-! #### Well-formed records -/

/-- Some line of text carries this record (30_encoding.md R40 to R42). -/
structure Record.WellFormed (r : Record) : Prop where
  label : labelOk r.label = true
  mnemonic : tokenOk r.mnemonic = true
  head : headOk r.label r.mnemonic = true
  operands : ∀ t ∈ r.operands, tokenOk t = true

theorem Instr.record_instr {i : Instr} (h : i.wellFormed = true) : i.record.instr = i := by
  cases i with
  | generic l m ops => exact Laws.Classify.generic l m ops h
  | lw l ops => exact Laws.Classify.lw l ops h
  | sw l ops => exact Laws.Classify.sw l ops h
  | jal l ops => exact Laws.Classify.jal l ops h
  | bge l ops => exact Laws.Classify.bge l ops h
  | ble l ops => exact Laws.Classify.ble l ops h

/-- Each of the five distinguished mnemonics may stand at the head of a line. -/
theorem distinguished_mnemonic_ok {m : Text} (h : classOf m ≠ .generic) :
    tokenOk m = true ∧ termFree m = true := by
  have hm : m = Config.mnLoad ∨ m = Config.mnStore ∨ m = Config.mnJump ∨ m = Config.mnBr1 ∨
      m = Config.mnBr2 := by
    by_contra hno
    simp only [not_or] at hno
    exact h ((classOf_generic_iff m).2 hno)
  rcases hm with rfl | rfl | rfl | rfl | rfl <;> decide

/-- An instruction is well-formed when its record is. -/
theorem Record.wellFormed_instr (r : Record) : r.instr.wellFormed = true ↔ r.WellFormed := by
  have distinguished : classOf r.mnemonic ≠ .generic →
      ((labelOk r.label && r.operands.all tokenOk) = true ↔ r.WellFormed) := by
    intro hc
    obtain ⟨hm, hfree⟩ := distinguished_mnemonic_ok hc
    rw [Bool.and_eq_true, List.all_eq_true]
    exact ⟨fun ⟨hl, ho⟩ => ⟨hl, hm, by simp [headOk, hfree], ho⟩, fun h => ⟨h.label, h.operands⟩⟩
  unfold Record.instr
  cases hc : classOf r.mnemonic
  case generic =>
    simp only [Instr.wellFormed, hc, Bool.and_eq_true, List.all_eq_true, beq_self_eq_true, and_true]
    exact ⟨fun ⟨⟨⟨hl, hm⟩, hh⟩, ho⟩ => ⟨hl, hm, hh, ho⟩,
      fun h => ⟨⟨⟨h.label, h.mnemonic⟩, h.head⟩, h.operands⟩⟩
  all_goals exact distinguished (by simp [hc])

theorem Instr.wellFormed_record {i : Instr} (h : i.wellFormed = true) : i.record.WellFormed :=
  (Record.wellFormed_instr _).1 (by rwa [Instr.record_instr h])

/-! #### Steps 1 to 4 on a line -/

theorem lineLabel_eq_none_iff (line : Text) :
    lineLabel line = none ↔ Config.labelTerm ∉ (cutAt Config.tokenSep line).1 := by
  rw [← hasByte_eq_false_iff]
  simp only [lineLabel, Config.noLabel]
  cases hasByte Config.labelTerm (cutAt Config.tokenSep line).1 <;> simp

theorem lineLabel_eq_some {line l : Text} (h : lineLabel line = some l) :
    l = beforeByte Config.labelTerm (cutAt Config.tokenSep line).1 := by
  simp only [lineLabel, Config.noLabel] at h
  split at h
  · exact (Option.some.inj h).symm
  · cases h

theorem rawRecord_unlabelled {line : Text} (h : Config.labelTerm ∉ (cutAt Config.tokenSep line).1) :
    rawRecord line = .ok ⟨none, (cutAt Config.tokenSep line).1,
      (cutAt Config.tokenSep line).2.map stripSeparator⟩ := by
  simp only [rawRecord, (lineLabel_eq_none_iff line).2 h, Config.noLabel]

theorem rawRecord_labelled {l body : Text} (hs : Config.tokenSep ∉ l) (ht : Config.labelTerm ∉ l) :
    rawRecord (encodeLabel (some l) ++ body) = .ok ⟨some l, (cutAt Config.tokenSep body).1,
      (cutAt Config.tokenSep body).2.map stripSeparator⟩ := by
  have hcut : cutAt Config.tokenSep (encodeLabel (some l) ++ body) =
      (l ++ [Config.labelTerm], (cutAt Config.tokenSep body).1 :: (cutAt Config.tokenSep body).2) := by
    have hs' : Config.tokenSep ∉ l ++ [Config.labelTerm] := by
      simpa using ⟨hs, by decide⟩
    simpa [encodeLabel] using cutAt_append_sep (u := body) hs'
  have hlabel : lineLabel (encodeLabel (some l) ++ body) = some l := by
    simp only [lineLabel, hcut]
    rw [if_pos ((hasByte_eq_true_iff _ _).2 (by simp)), beforeByte_append _ _ ht]
  simp only [rawRecord, hlabel, hcut]

/-- A line is rejected when it has a label and no further piece. -/
theorem rawRecord_eq_error_iff (line : Text) : rawRecord line = .error .labelOnlyLine ↔
    lineLabel line ≠ none ∧ (cutAt Config.tokenSep line).2 = [] := by
  unfold rawRecord
  dsimp only
  split
  · simp [*]
  · split <;> simp [*]

theorem decode_eq_error_iff (line : Text) (e : Reject) :
    decode line = .error e ↔ rawRecord line = .error e := by
  unfold decode
  cases rawRecord line <;> simp

theorem decode_eq_ok_iff (line : Text) (i : Instr) :
    decode line = .ok i ↔ ∃ raw, rawRecord line = .ok raw ∧ raw.finalStrip.instr = i := by
  unfold decode
  cases rawRecord line <;> simp

/-! #### The record with its eol-char still attached -/

/-- The record before the final strip: the eol-char is the last character of the last token. -/
def Record.withEol (eol : Byte) (r : Record) : Record :=
  match r.operands with
  | [] => { r with mnemonic := r.mnemonic ++ [eol] }
  | _ :: _ => { r with operands := mapLast (· ++ [eol]) r.operands }

/-- The operand pieces of a written line, each but the last with its separator and the last with the eol-char. -/
def operandPieces (eol : Byte) : List Text → List Text
  | [] => []
  | [t] => [t ++ [eol]]
  | t :: u :: ops => (t ++ [Config.operandSep]) :: operandPieces eol (u :: ops)

theorem mapLast_mapLast {α : Type} {f g : α → α} (h : ∀ a, g (f a) = a) (l : List α) :
    mapLast g (mapLast f l) = l := by
  rcases List.eq_nil_or_concat l with rfl | ⟨l, a, rfl⟩
  · rfl
  · simp [List.concat_eq_append, mapLast_append, h]

theorem Record.finalStrip_withEol (eol : Byte) (r : Record) : (r.withEol eol).finalStrip = r := by
  obtain ⟨l, m, ops⟩ := r
  cases ops with
  | nil => simp [Record.withEol, Record.finalStrip, dropLastByte_append]
  | cons t ops =>
    have hback := mapLast_mapLast (fun u => dropLastByte_append u eol) (t :: ops)
    cases hmap : mapLast (· ++ [eol]) (t :: ops) with
    | nil => simp [hmap, mapLast] at hback
    | cons u us =>
      rw [hmap] at hback
      simp only [Record.withEol, Record.finalStrip, hmap, hback]

/-- Only the separators are taken off the operand pieces, since the eol-char is none. -/
theorem stripSeparator_operandPieces {eol : Byte} (h : eol ≠ Config.operandSep) (ops : List Text) :
    (operandPieces eol ops).map stripSeparator = mapLast (· ++ [eol]) ops := by
  induction ops using operandPieces.induct with
  | case1 => rfl
  | case2 t => simp [operandPieces, mapLast, stripSeparator_other h]
  | case3 t u ops ih => simp [operandPieces, mapLast, stripSeparator_append, ih]

/-- Cutting what is written behind the label, from the mnemonic on. -/
theorem cutAt_body {eol : Byte} (heol : eol ≠ Config.tokenSep) {r : Record}
    (hm : Config.tokenSep ∉ r.mnemonic) (ho : ∀ t ∈ r.operands, Config.tokenSep ∉ t) :
    cutAt Config.tokenSep (r.mnemonic ++ encodeOperands r.operands ++ [eol]) =
      ((r.withEol eol).mnemonic, operandPieces eol r.operands) := by
  have noSep : ∀ {t : Text} {c : Byte}, Config.tokenSep ∉ t → c ≠ Config.tokenSep →
      Config.tokenSep ∉ t ++ [c] := by
    intro t c ht hc
    simpa using ⟨ht, hc.symm⟩
  obtain ⟨l, m, ops⟩ := r
  dsimp only at hm ho ⊢
  induction ops using operandPieces.induct generalizing m with
  | case1 => simpa [encodeOperands, operandPieces, Record.withEol] using cutAt_no_sep (noSep hm heol)
  | case2 t =>
    have hlast := cutAt_no_sep (noSep (ho t (by simp)) heol)
    simpa [encodeOperands, operandPieces, Record.withEol, hlast] using
      cutAt_append_sep (u := t ++ [eol]) hm
  | case3 t u ops ih =>
    obtain ⟨ht, hops⟩ := List.forall_mem_cons.1 ho
    have hrest := ih (t ++ [Config.operandSep]) (noSep ht (by decide)) hops
    have hcut := cutAt_append_sep (u := t ++ [Config.operandSep] ++ encodeOperands (u :: ops) ++ [eol]) hm
    rw [hrest] at hcut
    simpa [encodeOperands, operandPieces, Record.withEol] using hcut

theorem Record.withEol_eq {eol : Byte} (h : eol ≠ Config.operandSep) (r : Record) :
    r.withEol eol =
      ⟨r.label, (r.withEol eol).mnemonic, (operandPieces eol r.operands).map stripSeparator⟩ := by
  rw [stripSeparator_operandPieces h]
  unfold Record.withEol
  cases r.operands <;> simp [mapLast]

theorem Record.not_mem_withEol_mnemonic {c eol : Byte} {r : Record} (hc : eol ≠ c) (hm : c ∉ r.mnemonic) :
    c ∉ (r.withEol eol).mnemonic := by
  unfold Record.withEol
  cases r.operands <;> simp [hm, hc.symm]

/-- Steps 1 to 4 read a written line back, up to the eol-char. -/
theorem rawRecord_line {r : Record} (h : r.WellFormed) {eol : Byte} (hs : eol ≠ Config.tokenSep)
    (ht : eol ≠ Config.labelTerm) (ho : eol ≠ Config.operandSep) :
    rawRecord (r.line eol) = .ok (r.withEol eol) := by
  have hcut := cutAt_body hs ((tokenOk_iff _).1 h.mnemonic).1 fun t hmem =>
    ((tokenOk_iff t).1 (h.operands t hmem)).1
  have hline : r.line eol =
      encodeLabel r.label ++ (r.mnemonic ++ encodeOperands r.operands ++ [eol]) := by
    simp [Record.line]
  rw [hline, r.withEol_eq ho]
  have hlabel := h.label
  have hhead := h.head
  cases hl : r.label with
  | none =>
    have hm : Config.labelTerm ∉ r.mnemonic := by simpa [headOk, hl, termFree_iff] using hhead
    have hfree := Record.not_mem_withEol_mnemonic ht hm
    rw [encodeLabel, List.nil_append, rawRecord_unlabelled (by rwa [hcut]), hcut]
  | some l =>
    simp only [labelOk, hl, Bool.and_eq_true, tokenOk_iff, termFree_iff] at hlabel
    obtain ⟨⟨hsep, -⟩, hterm⟩ := hlabel
    rw [rawRecord_labelled hsep hterm, hcut]

/-- The line of a well-formed record decodes to its instruction, whatever the eol-char is. -/
theorem decode_line {r : Record} (h : r.WellFormed) {eol : Byte} (hs : eol ≠ Config.tokenSep)
    (ht : eol ≠ Config.labelTerm) (ho : eol ≠ Config.operandSep) :
    decode (r.line eol) = .ok r.instr :=
  (decode_eq_ok_iff _ _).2 ⟨_, rawRecord_line h hs ht ho, by rw [Record.finalStrip_withEol]⟩

/-! #### What a line decodes to -/

theorem tokenOk_of_subset {t u : Text} (h : ∀ b ∈ u, b ∈ t) (ht : tokenOk t = true) :
    tokenOk u = true := by
  rw [tokenOk_iff] at ht ⊢
  exact ⟨fun hu => ht.1 (h _ hu), fun hu => ht.2 (h _ hu)⟩

/-- The pieces of a line are tokens. -/
theorem tokenOk_pieces {line : Text} (h : Config.lineSep ∉ line) :
    tokenOk (cutAt Config.tokenSep line).1 = true ∧
      ∀ p ∈ (cutAt Config.tokenSep line).2, tokenOk p = true := by
  obtain ⟨hfst, hsnd⟩ := cutAt_subset Config.tokenSep line
  simp only [tokenOk_iff]
  exact ⟨⟨sep_not_mem_cutAt_fst _ _, fun hm => h (hfst _ hm)⟩,
    fun p hp => ⟨sep_not_mem_cutAt_snd _ _ p hp, fun hm => h (hsnd p hp _ hm)⟩⟩

theorem labelOk_lineLabel {line : Text} (h : Config.lineSep ∉ line) : labelOk (lineLabel line) = true := by
  cases hl : lineLabel line with
  | none => rfl
  | some l =>
    rw [lineLabel_eq_some hl, labelOk, Bool.and_eq_true]
    exact ⟨tokenOk_of_subset (beforeByte_subset _ _) (tokenOk_pieces h).1,
      (termFree_iff _).2 (not_mem_beforeByte _ _)⟩

theorem tokenOk_map_stripSeparator {ps : List Text} (h : ∀ p ∈ ps, tokenOk p = true) :
    ∀ t ∈ ps.map stripSeparator, tokenOk t = true := by
  intro t ht
  obtain ⟨p, hp, rfl⟩ := List.mem_map.1 ht
  exact tokenOk_of_subset (stripSeparator_subset p) (h p hp)

theorem rawRecord_wellFormed {line : Text} {raw : Record} (h : Config.lineSep ∉ line)
    (hraw : rawRecord line = .ok raw) : raw.WellFormed := by
  obtain ⟨hfst, hsnd⟩ := tokenOk_pieces h
  obtain ⟨hlabel, ⟨hnone, hm, ho⟩ | ⟨l, rest, hsome, hcut, ho⟩⟩ := rawRecord_ok hraw
  · refine ⟨hlabel ▸ labelOk_lineLabel h, hm ▸ hfst, ?_, ho ▸ tokenOk_map_stripSeparator hsnd⟩
    have hfree := (termFree_iff _).2 ((lineLabel_eq_none_iff line).1 hnone)
    simp [headOk, hm, hfree]
  · rw [hcut, List.forall_mem_cons] at hsnd
    refine ⟨hlabel ▸ labelOk_lineLabel h, hsnd.1, ?_, ho ▸ tokenOk_map_stripSeparator hsnd.2⟩
    simp [headOk, hlabel, hsome]

theorem headOk_of_subset {l : Option Text} {m m' : Text} (h : ∀ b ∈ m', b ∈ m)
    (hm : headOk l m = true) : headOk l m' = true := by
  simp only [headOk, Bool.or_eq_true, termFree_iff] at hm ⊢
  exact hm.imp_right fun hfree hmem => hfree (h _ hmem)

/-- The final strip only takes a character away. -/
theorem Record.WellFormed.finalStrip {raw : Record} (h : raw.WellFormed) : raw.finalStrip.WellFormed := by
  unfold Record.finalStrip
  split
  · exact ⟨h.label, tokenOk_of_subset (dropLastByte_subset _) h.mnemonic,
      headOk_of_subset (dropLastByte_subset _) h.head, h.operands⟩
  · refine ⟨h.label, h.mnemonic, h.head, fun t ht => ?_⟩
    rcases mem_mapLast dropLastByte raw.operands t ht with hmem | ⟨u, hu, rfl⟩
    · exact h.operands t hmem
    · exact tokenOk_of_subset (dropLastByte_subset u) (h.operands u hu)

/-! #### The statements -/

/-- Settles O2: a well-formed instruction is the one its record stands for, and `decode_line` decodes the record's
line with any eol-char that is no separator. -/
theorem eolCharIsNotLookedAt : Obligations.EolCharIsNotLookedAt := by
  intro i eol hwf hs ht ho
  rw [decode_line (Instr.wellFormed_record hwf) hs ht ho, Instr.record_instr hwf]

/-- Settles O1: the encoder's line is the record's line with the eol-char CR. -/
theorem decodeOfEncode : Obligations.DecodeOfEncode := fun i hwf =>
  eolCharIsNotLookedAt i Config.eolChar hwf (by decide) (by decide) (by decide)

/-- Settles O3: the record before the final strip is well-formed, and the strip keeps that. -/
theorem decodedIsWellFormed : Obligations.DecodedIsWellFormed := by
  intro line i hline hdecode
  obtain ⟨raw, hraw, rfl⟩ := (decode_eq_ok_iff line i).1 hdecode
  exact (Record.wellFormed_instr _).2 (rawRecord_wellFormed hline hraw).finalStrip

/-- Settles O4: a line without further piece is one without space, and then its head token is the whole line. -/
theorem decodeRejectsLabelOnly : Obligations.DecodeRejectsLabelOnly := by
  intro line
  rw [decode_eq_error_iff, rawRecord_eq_error_iff, cutAt_snd_nil_iff, Ne, lineLabel_eq_none_iff, not_not]
  refine and_congr_left fun hsep => ?_
  rw [cutAt_no_sep hsep]

end Sys2Proof
end

section
/-!
### Classes, immediates and unknown mnemonics (30_encoding.md R42, R49 to R53)
-/

namespace Sys2Proof

/-! #### The spec's mnemonics as texts -/

theorem bytesOf_lw : bytesOf "lw" = Config.mnLoad := by decide
theorem bytesOf_sw : bytesOf "sw" = Config.mnStore := by decide
theorem bytesOf_jal : bytesOf "jal" = Config.mnJump := by decide
theorem bytesOf_bge : bytesOf "bge" = Config.mnBr1 := by decide
theorem bytesOf_ble : bytesOf "ble" = Config.mnBr2 := by decide
theorem bytesOf_hexMark : bytesOf "0x" = Config.hexMark := by decide

theorem classOf_generic_iff_not_mem (m : Text) :
    classOf m = .generic ↔ m ∉ ["lw", "sw", "jal", "bge", "ble"].map bytesOf := by
  rw [classOf_generic_iff]
  simp [bytesOf_lw, bytesOf_sw, bytesOf_jal, bytesOf_bge, bytesOf_ble]

/-- Settles O5: one equivalence per class. -/
theorem mnemonicDecidesClass : Obligations.MnemonicDecidesClass := by
  intro m
  rw [bytesOf_lw, bytesOf_sw, bytesOf_jal, bytesOf_bge, bytesOf_ble]
  exact ⟨classOf_load_iff m, classOf_store_iff m, classOf_jump_iff m, classOf_br1_iff m, classOf_br2_iff m,
    classOf_generic_iff_not_mem m⟩

/-- Settles O6: the decoder runs on each of the seven lines. -/
theorem specLinesDecode : Obligations.SpecLinesDecode := by
  unfold Obligations.SpecLinesDecode
  decide

/-! #### Decimal integers -/

/-- A decimal digit character. -/
def IsDigit (b : Byte) : Prop := 0x30 ≤ b.toNat ∧ b.toNat ≤ 0x39

/-- The value of decimal digits read onto a value already read. -/
def decimalFrom (acc : Nat) (ds : Text) : Nat := ds.foldl (fun a b => 10 * a + (b.toNat - 0x30)) acc

theorem digitValue_eq_some_iff (b : Byte) (d : Nat) :
    digitValue b = some d ↔ IsDigit b ∧ b.toNat - 0x30 = d := by
  unfold digitValue IsDigit
  split <;> simp [*]

theorem digitsFrom_eq_some_iff (acc : Nat) (t : Text) (n : Nat) :
    digitsFrom acc t = some n ↔ (∀ b ∈ t, IsDigit b) ∧ decimalFrom acc t = n := by
  induction t generalizing acc with
  | nil => simp [digitsFrom, decimalFrom]
  | cons b t ih =>
    rw [List.forall_mem_cons, and_assoc, digitsFrom]
    cases hd : digitValue b with
    | none =>
      have hno : ¬IsDigit b := fun h => by simp [(digitValue_eq_some_iff b _).2 ⟨h, rfl⟩] at hd
      simp [hno]
    | some d =>
      obtain ⟨hb, rfl⟩ := (digitValue_eq_some_iff b d).1 hd
      simpa [hb, decimalFrom] using ih (10 * acc + (b.toNat - 0x30))

theorem parseNat_eq_some_iff (t : Text) (n : Nat) :
    parseNat t = some n ↔ t ≠ [] ∧ (∀ b ∈ t, IsDigit b) ∧ decimalFrom 0 t = n := by
  cases t with
  | nil => simp [parseNat]
  | cons b t => simpa [parseNat] using digitsFrom_eq_some_iff 0 (b :: t) n

theorem not_isDigit_minusSign : ¬IsDigit Config.minusSign := by
  unfold IsDigit
  decide

/-- `ParseInt` reads digits, or digits behind the sign. -/
theorem parseInt_eq_some_iff (t : Text) (v : Int) : parseInt t = some v ↔
    (∃ n, parseNat t = some n ∧ v = n) ∨
      ∃ ds n, t = Config.minusSign :: ds ∧ parseNat ds = some n ∧ v = -(n : Int) := by
  cases t with
  | nil => simp [parseInt, parseNat]
  | cons b t =>
    by_cases hb : b = Config.minusSign
    · subst hb
      have hno : ∀ n, parseNat (Config.minusSign :: t) ≠ some n := by
        intro n hn
        obtain ⟨-, hdigits, -⟩ := (parseNat_eq_some_iff _ n).1 hn
        exact not_isDigit_minusSign (hdigits _ List.mem_cons_self)
      simp [parseInt, hno, eq_comm]
    · simp [parseInt, hb, eq_comm]

/-- Settles O9: `parseInt` in terms of `parseNat`, which reads one or more digits. -/
theorem parseIntReadsDecimal : Obligations.ParseIntReadsDecimal := by
  intro t v
  rw [parseInt_eq_some_iff]
  constructor
  · rintro (⟨n, hn, rfl⟩ | ⟨ds, n, rfl, hn, rfl⟩) <;>
      obtain ⟨hne, hdigits, rfl⟩ := (parseNat_eq_some_iff _ n).1 hn
    · exact ⟨t, hne, hdigits, .inl ⟨rfl, rfl⟩⟩
    · exact ⟨ds, hne, hdigits, .inr ⟨rfl, rfl⟩⟩
  · rintro ⟨ds, hne, hdigits, hcase⟩
    have hn := (parseNat_eq_some_iff ds _).2 ⟨hne, hdigits, rfl⟩
    obtain ⟨rfl, rfl⟩ | ⟨rfl, rfl⟩ := hcase
    · exact .inl ⟨_, hn, rfl⟩
    · exact .inr ⟨ds, _, rfl, hn, rfl⟩

end Sys2Proof

namespace Sys2Proof.Machine

/-! #### Latency -/

theorem hasHexImm_iff (r : Record) : hasHexImm r = true ↔
    ∃ t, r.operands.getLast? = some t ∧ containsText t (bytesOf "0x") = true := by
  rw [bytesOf_hexMark]
  unfold hasHexImm isHexImm
  cases r.operands.getLast? <;> simp

/-- Settles O10: a load, a store, or a last operand that is a hexadecimal immediate. -/
theorem latencyCauses : Obligations.LatencyCauses := by
  intro r
  rw [bytesOf_lw, bytesOf_sw, ← hasHexImm_iff, ← classOf_load_iff, ← classOf_store_iff]
  simp only [needsLatency, Bool.or_eq_true, beq_iff_eq]
  tauto

/-! #### Unknown mnemonics -/

/-- A record with an unknown mnemonic stands for a generic instruction. -/
theorem instr_of_generic {r : Record} (h : classOf r.mnemonic = .generic) :
    r.instr = .generic r.label r.mnemonic r.operands := by
  simp only [Record.instr, h]

/-- A generic instruction has no control hazard and advances. -/
theorem exec_generic_advances {l : Option Text} {m : Text} {ops : List Text} {s : State}
    (h : ReachesControl s ⟨l, m, ops⟩) (hf : FetchFreed s) (hl : s.fetchPos ≠ s.last) :
    exec (.generic l m ops) s = .next (s.afterMove (s.fetchPos + 1) s.ctr) :=
  exec_performs (i := .generic l m ops) h rfl hf hl ⟨rfl, rfl⟩

/-- Every cycle answers a next state: it is counted and moves the write-back cursor, or only the fault register is
written. -/
theorem exec_completes_or_raises (i : Instr) (s : State) : ∃ t, exec i s = .next t ∧
    (t.cycles = s.cycles + 1 ∧ t.writebackPos = s.execPos ∧ t.fault = s.fault ∨
      ∃ c, t = { s with fault := some c }) := by
  rcases exec_cases i s with ⟨c, he, -⟩ | ⟨-, he⟩ | ⟨fs, -, he, -⟩ | ⟨dst, ctr, -, he, -⟩ <;>
    refine ⟨_, he, ?_⟩
  case inl => exact .inr ⟨c, rfl⟩
  all_goals exact .inl ⟨rfl, rfl, rfl⟩

/-- Settles O45: the line decodes by `decode_line`; an unknown mnemonic makes it generic; and what an instruction
does in a cycle is the same alternative for all six. -/
theorem noInstructionIsRefused : Obligations.NoInstructionIsRefused := by
  intro l m ops hl hm hh ho
  have hdecode := decode_line (r := ⟨l, m, ops⟩) ⟨hl, hm, hh, ho⟩ (eol := Config.eolChar)
    (by decide) (by decide) (by decide)
  refine ⟨_, hdecode, record_instr_record _, fun hno => ?_, exec_completes_or_raises _⟩
  have hgen := instr_of_generic (r := ⟨l, m, ops⟩) ((classOf_generic_iff_not_mem m).2 hno)
  refine ⟨hgen, fun s hr hf hlast => ?_⟩
  rw [hgen]
  exact exec_generic_advances hr hf hlast

end Sys2Proof.Machine
end

section
/-!
### Well-formed sources (30_encoding.md R52)

A well-formed source loads, and every record it loads has the fields a cycle reads: an operand, an integer threshold,
a defined target. `Raises` lists the faults of a cycle; each needs one of these to be missing, or the invariant to
fail, which every load establishes.
-/

namespace Sys2Proof.Machine

/-! #### The loader establishes the invariant -/

/-- A property that every loaded line keeps holds of the tables of all lines. -/
theorem loadLines_induct {P : Nat → Tables → Prop} {i : Nat} {lines : List Text} {t t' : Tables}
    (hstep : ∀ i line t t', loadLine i line t = .ok t' → P i t → P (i + 1) t')
    (h : loadLines i lines t = .ok t') (ht : P i t) : P (i + lines.length) t' := by
  induction lines generalizing i t with
  | nil =>
    obtain rfl : t = t' := by simpa [loadLines] using h
    exact ht
  | cons line lines ih =>
    unfold loadLines at h
    split at h
    · cases h
    · rename_i t1 h1
      rw [List.length_cons, Nat.add_comm lines.length 1, ← Nat.add_assoc]
      exact ih h (hstep i line t t1 h1 ht)

/-- The counters of loaded tables (40_program_loader.md R70). -/
structure Tables.Counted (t : Tables) : Prop where
  present : ∀ (i : Nat) (r : Record), t.prog[i]? = some r → isCountedBranch r = true → r.operands ≠ [] →
    (t.ctr.lookup i).isSome = true
  zero : ∀ e ∈ t.ctr, e.2 = 0

/-- A line whose record is a counted branch with an operand registers its counter: the mnemonic was compared as it
is loaded. -/
theorem registersCounter_of_finalStrip {raw : Record} (hb : isCountedBranch raw.finalStrip = true)
    (ho : raw.finalStrip.operands ≠ []) : raw.registersCounter = true := by
  have hname : isBranchName raw.mnemonic = true := by
    rw [isBranchName_iff, ← finalStrip_mnemonic ho]
    simpa [isCountedBranch] using hb
  simp [Record.registersCounter, hname]

theorem lookup_addCounter_isSome {i k : Nat} {raw : Record} {ctr : List (Nat × Int)}
    (h : (ctr.lookup k).isSome = true ∨ k = i ∧ raw.registersCounter = true) :
    ((addCounter i raw ctr).lookup k).isSome = true := by
  unfold addCounter
  rcases h with h | ⟨rfl, h⟩
  · split <;> simp [List.lookup_append, h]
  · simp [h, List.lookup_append]

theorem addCounter_zero {i : Nat} {raw : Record} {ctr : List (Nat × Int)} (h : ∀ e ∈ ctr, e.2 = 0) :
    ∀ e ∈ addCounter i raw ctr, e.2 = 0 := by
  unfold addCounter
  split
  · simpa [or_imp, forall_and] using h
  · exact h

theorem loadLine_counted {i : Nat} {line : Text} {t t' : Tables} (h : loadLine i line t = .ok t')
    (hi : t.prog.length = i) (ht : t.Counted) : t'.Counted := by
  obtain ⟨sym, raw, -, -, rfl⟩ := loadLine_ok h
  refine ⟨fun k r hk hb ho => lookup_addCounter_isSome ?_, addCounter_zero ht.zero⟩
  rcases Nat.lt_or_ge k i with hlt | hge
  · rw [List.getElem?_append_left (hi ▸ hlt)] at hk
    exact .inl (ht.present k r hk hb ho)
  · rw [List.getElem?_append_right (hi ▸ hge), List.getElem?_singleton] at hk
    split at hk
    · obtain rfl := Option.some.inj hk
      exact .inr ⟨by omega, registersCounter_of_finalStrip hb ho⟩
    · cases hk

theorem load_counted {src : Source} {t : Tables} (h : load src = .ok t) : t.Counted := by
  have hempty : Tables.empty.Counted := ⟨by simp [Tables.empty], by simp [Tables.empty]⟩
  cases src with
  | unreadable =>
    obtain rfl : Tables.empty = t := by simpa [load] using h
    exact hempty
  | text b =>
    have hline : ∀ i line (t t' : Tables), loadLine i line t = .ok t' → t.Loaded i ∧ t.Counted →
        t'.Loaded (i + 1) ∧ t'.Counted := fun _ _ _ _ h ht =>
      ⟨loadLine_loaded h ht.1, loadLine_counted h ht.1.length ht.2⟩
    exact (loadLines_induct (P := fun i t => t.Loaded i ∧ t.Counted) hline h
      ⟨Tables.empty_loaded, hempty⟩).2

theorem counterBound_nonneg (r : Record) : 0 ≤ counterBound r := by
  unfold counterBound
  split <;> omega

theorem resetWith_of_load {src : Source} {t : Tables} (h : load src = .ok t) :
    State.resetWith src = { State.reset with prog := t.prog, sym := t.sym, ctr := t.ctr } := by
  simp only [State.resetWith, h]

/-- A source that loads starts with the invariant. -/
theorem inv_of_load {src : Source} {t : Tables} (h : load src = .ok t) : (State.resetWith src).Inv := by
  have hwf := Memory.resetWith_wf src
  have hcounted := load_counted h
  rw [resetWith_of_load h] at hwf ⊢
  exact {
    memory := hwf
    cursors := fun hpos => ⟨hpos, hpos, hpos⟩
    counters := hcounted.present
    ranges := fun i r c _ hc => by
      obtain rfl : c = 0 := hcounted.zero (i, c) (mem_of_lookup hc)
      exact ⟨le_rfl, counterBound_nonneg r⟩
    latency := nofun
    sound := nofun }

/-! #### Lines in normal form -/

/-- No field that a cycle reads of this instruction is missing or malformed, where `labels` are the defined ones. -/
structure CannotFault (labels : List Text) (i : Instr) : Prop where
  operands : i.record.operands ≠ []
  threshold : Counts i → ∀ u, i.record.operands[0]? = some u → parseInt u ≠ none
  target : (Counts i ∨ ∃ l ops, i = .jal l ops) → ∃ l ∈ labels, i.record.operands[targetAt i]? = some l

theorem operandsNormal_ne_nil {ops : List Text} (h : operandsNormal ops = true) : ops ≠ [] := by
  rintro rfl
  cases h

/-- A counted branch in normal form has an integer threshold and a label. -/
theorem branchOperandsNormal_cases {ops : List Text} (h : branchOperandsNormal ops = true) :
    ∃ u l, ops = [u, l] ∧ parseInt u ≠ none := by
  unfold branchOperandsNormal at h
  split at h
  · rename_i u l
    refine ⟨u, l, rfl, fun hnone => ?_⟩
    simp [thresholdNormal, hnone] at h
  · cases h

theorem cannotFault_ordinary {labels : List Text} {i : Instr} (ho : operandsNormal i.record.operands = true)
    (hb : ¬Counts i) (hj : ∀ l ops, i ≠ .jal l ops) : CannotFault labels i where
  operands := operandsNormal_ne_nil ho
  threshold hc := absurd hc hb
  target h := h.elim (absurd · hb) fun ⟨l, ops, he⟩ => absurd he (hj l ops)

theorem cannotFault_branch {labels : List Text} {i : Instr} (hat : targetAt i = 1)
    (hl : targetLabel i = i.record.operands[1]?)
    (ho : branchOperandsNormal i.record.operands = true)
    (ht : ∀ l, targetLabel i = some l → l ∈ labels) : CannotFault labels i := by
  obtain ⟨u, l, hops, hu⟩ := branchOperandsNormal_cases ho
  rw [hl, hops] at ht
  refine ⟨by simp [hops], fun _ v hv => ?_, fun _ => ⟨l, ht l rfl, by simp [hops, hat]⟩⟩
  obtain rfl : u = v := by simpa [hops] using hv
  exact hu

/-- An instruction in normal form whose target is defined has every field a cycle reads. -/
theorem cannotFault_of_normal {labels : List Text} {i : Instr} (h : i.normal = true)
    (ht : ∀ l, targetLabel i = some l → l ∈ labels) : CannotFault labels i := by
  cases i <;> simp only [Instr.normal, Bool.and_eq_true, beq_iff_eq] at h
  case generic l m ops => exact cannotFault_ordinary h.2 (by simp [Counts]) nofun
  case lw l ops => exact cannotFault_ordinary h.2 (by simp [Counts]) nofun
  case sw l ops => exact cannotFault_ordinary h.2 (by simp [Counts]) nofun
  case jal l ops =>
    obtain ⟨-, hlen⟩ := h
    obtain ⟨target, rfl⟩ := List.length_eq_one_iff.1 hlen
    exact ⟨by simp [Instr.record], fun hc => by simp [Counts] at hc,
      fun _ => ⟨target, ht target rfl, rfl⟩⟩
  case bge l ops => exact cannotFault_branch rfl rfl h.2 ht
  case ble l ops => exact cannotFault_branch rfl rfl h.2 ht

theorem lineNormal_decodes {line : Text} (h : lineNormal line = true) :
    ∃ i, decode line = .ok i ∧ i.normal = true := by
  unfold lineNormal at h
  split at h
  · rename_i eol i _ hdecode
    simp only [Bool.and_eq_true] at h
    obtain ⟨⟨hnormal, -⟩, -⟩ := h
    exact ⟨i, hdecode, hnormal⟩
  · cases h

theorem targetDefined_mem {labels : List Text} {line : Text} {i : Instr}
    (h : targetDefined labels line = true) (hi : decode line = .ok i) :
    ∀ l, targetLabel i = some l → l ∈ labels := by
  intro l hl
  simpa [targetDefined, hi, hl] using h

/-! #### A well-formed source loads -/

theorem definedLabels_cons (line : Text) (lines : List Text) :
    definedLabels (line :: lines) = (lineLabel line).toList ++ definedLabels lines := by
  unfold definedLabels
  rw [List.filterMap_cons]
  cases lineLabel line <;> rfl

/-- A line with a mnemonic and a new label, if any, is loaded. -/
theorem loadLine_defined {i : Nat} {line : Text} {t : Tables} {raw : Record} (hraw : rawRecord line = .ok raw)
    (hnew : ∀ l, lineLabel line = some l → l ∉ t.sym.map (·.1)) :
    ∃ t', loadLine i line t = .ok t' ∧ t'.prog = t.prog ++ [raw.finalStrip] ∧
      t'.sym.map (·.1) = t.sym.map (·.1) ++ (lineLabel line).toList := by
  unfold loadLine addLabel
  cases hl : lineLabel line with
  | none => simp [hraw]
  | some l =>
    have hnone : (t.sym.lookup l).isSome = false := by
      rw [← Bool.not_eq_true, lookup_isSome_iff]
      exact hnew l hl
    simp [hnone, hraw]

/-- Lines that decode, with labels distinct from each other and from those of the tables, are loaded: their labels
are added, and each new record is the one its line decodes to. -/
theorem loadLines_defined {i : Nat} {lines : List Text} {t : Tables}
    (hdecode : ∀ line ∈ lines, ∃ i, decode line = .ok i)
    (hnodup : (t.sym.map (·.1) ++ definedLabels lines).Nodup) :
    ∃ t', loadLines i lines t = .ok t' ∧ t'.sym.map (·.1) = t.sym.map (·.1) ++ definedLabels lines ∧
      ∀ r ∈ t'.prog, r ∈ t.prog ∨ ∃ line ∈ lines, decode line = .ok r.instr := by
  induction lines generalizing i t with
  | nil => exact ⟨t, rfl, by simp [definedLabels], fun r hr => .inl hr⟩
  | cons line lines ih =>
    obtain ⟨⟨j, hj⟩, hrest⟩ := List.forall_mem_cons.1 hdecode
    obtain ⟨raw, hraw, rfl⟩ := (decode_eq_ok_iff line j).1 hj
    rw [definedLabels_cons, ← List.append_assoc] at hnodup ⊢
    have hnew : ∀ l, lineLabel line = some l → l ∉ t.sym.map (·.1) := by
      intro l hl hmem
      have hdisjoint := List.disjoint_of_nodup_append (List.Nodup.of_append_left hnodup)
      exact hdisjoint hmem (by simp [hl])
    obtain ⟨t1, hload, hprog, hsym⟩ := loadLine_defined (i := i) hraw hnew
    rw [← hsym] at hnodup ⊢
    obtain ⟨t', hload', hsym', hprog'⟩ := ih (i := i + 1) hrest hnodup
    refine ⟨t', by simp only [loadLines, hload, hload'], hsym', fun r hr => ?_⟩
    rcases hprog' r hr with hmem | ⟨line', hline', hd⟩
    · rw [hprog, List.mem_append, List.mem_singleton] at hmem
      rcases hmem with hmem | rfl
      · exact .inl hmem
      · exact .inr ⟨line, List.mem_cons_self, hj⟩
    · exact .inr ⟨line', List.mem_cons_of_mem _ hline', hd⟩

/-! #### Runs without fault -/

/-- The invariant of a run that never faults. -/
structure State.FaultFree (s : State) : Prop where
  inv : s.Inv
  noFault : s.fault = none
  records : ∀ r ∈ s.prog, CannotFault (s.sym.map (·.1)) r.instr

theorem wellFormedText_faultFree {b : Text} (h : wellFormedText b = true) :
    (State.resetWith (.text b)).FaultFree := by
  simp only [wellFormedText, Bool.and_eq_true, List.all_eq_true, decide_eq_true_eq] at h
  obtain ⟨⟨hnormal, hnodup⟩, htarget⟩ := h
  obtain ⟨t, hload, hsym, hprog⟩ := loadLines_defined (i := 0) (t := Tables.empty)
    (fun line hline => (lineNormal_decodes (hnormal line hline)).imp fun _ hi => hi.1)
    (by simpa [Tables.empty] using hnodup)
  have hload : load (.text b) = .ok t := hload
  refine ⟨inv_of_load hload, by rw [resetWith_of_load hload]; rfl, ?_⟩
  rw [resetWith_of_load hload]
  intro r hr
  obtain hempty | ⟨line, hline, hd⟩ := hprog r hr
  · cases hempty
  · obtain ⟨i, hi, hn⟩ := lineNormal_decodes (hnormal line hline)
    obtain rfl : r.instr = i := Except.ok.inj (hd.symm.trans hi)
    refine cannotFault_of_normal hn ?_
    change ∀ l, targetLabel r.instr = some l → l ∈ t.sym.map (·.1)
    rw [hsym]
    exact targetDefined_mem (htarget line hline) hd

/-- No cycle of the fetched instruction raises a fault: each fault of `Raises` is one of the model's own checks or
needs a field that no record lacks. -/
theorem State.FaultFree.not_raises {s : State} (h : s.FaultFree) {r : Record}
    (hr : s.prog[s.fetchPos]? = some r) (c : Cause) : ¬Raises r.instr s c := by
  intro hc
  have hne : c ≠ .invariant := h.inv.raises_ne_invariant hr hc
  have hfields := h.records r (List.mem_of_getElem? hr)
  rcases hc with ⟨-, hinv⟩ | ⟨k, -, -, -, hinv⟩ | ⟨k, ri, -, -, hk, -, hempty, -⟩ |
    ⟨hcounts, ⟨hnone, -⟩ | ⟨u, hu, hint, -⟩ | ⟨-, -, hinv⟩⟩ | ⟨-, htransfer, htarget⟩
  · exact hne hinv
  · exact hne hinv
  · have hri := (h.records ri (List.mem_of_getElem? hk)).operands
    rw [record_instr_record] at hri
    exact hri hempty
  · exact hfields.operands (by simpa using hnone)
  · exact hfields.threshold hcounts u hu hint
  · exact hne hinv
  · obtain ⟨l, hl, hat⟩ := hfields.target htransfer
    rw [hat] at htarget
    obtain ⟨hnone, -⟩ | ⟨l', he, ⟨hlookup, -⟩ | ⟨-, -, -, hinv⟩⟩ := htarget
    · cases hnone
    · obtain rfl := Option.some.inj he
      have := (lookup_isSome_iff l s.sym).2 hl
      simp [hlookup] at this
    · exact hne hinv

theorem stopsBeforeCycle_eq_atEnd (s : State) : s.stopsBeforeCycle = s.atEnd := by
  simp [State.stopsBeforeCycle, Config.loopTestFirst]

/-- A step from a state in which the run has ended. -/
theorem step_of_atEnd {s : State} (hf : s.fault = none) (he : s.atEnd = true) : step s = .next s := by
  simp [step, hf, stopsBeforeCycle_eq_atEnd, he]

/-- A step from a running state is the cycle of the fetched instruction. -/
theorem step_of_fetch {s : State} {r : Record} (hf : s.fault = none) (he : s.atEnd = false)
    (hr : s.prog[s.fetchPos]? = some r) : step s = exec r.instr s := by
  simp [step, hf, stopsBeforeCycle_eq_atEnd, he, fetchInstr, hr]

theorem State.FaultFree.step_noFault {s : State} (h : s.FaultFree) :
    ∃ t, step s = .next t ∧ t.fault = none := by
  cases hend : s.atEnd with
  | true => exact ⟨s, step_of_atEnd h.noFault hend, h.noFault⟩
  | false =>
    obtain ⟨hfetch, -, -⟩ := h.inv.cursors (atEnd_eq_false hend).1
    have hr : s.prog[s.fetchPos]? = some s.prog[s.fetchPos] := List.getElem?_eq_getElem hfetch
    rw [step_of_fetch h.noFault hend hr]
    rcases exec_cases (s.prog[s.fetchPos]'hfetch).instr s with
      ⟨c, -, hc⟩ | ⟨-, he⟩ | ⟨fs, -, he, -⟩ | ⟨dst, ctr, -, he, -⟩
    case inl => exact absurd hc (h.not_raises hr c)
    all_goals exact ⟨_, he, h.noFault⟩

theorem State.FaultFree.step {s : State} (h : s.FaultFree) :
    ∃ t, Machine.step s = .next t ∧ t.FaultFree := by
  obtain ⟨t, hstep, hfault⟩ := h.step_noFault
  obtain ⟨hprog, hsym⟩ := programIsNeverWritten s t hstep
  exact ⟨t, hstep, stepKeepsInvariant s t h.inv hstep, hfault, by rw [hprog, hsym]; exact h.records⟩

theorem State.FaultFree.run {s : State} (h : s.FaultFree) (n : Nat) :
    ∃ t : State, Host.Core.run core n s = .next t ∧ t.FaultFree := by
  induction n generalizing s with
  | zero => exact ⟨s, rfl, h⟩
  | succ n ih =>
    obtain ⟨u, hstep, hu⟩ := h.step
    obtain ⟨t, hrun, ht⟩ := ih hu
    exact ⟨t, (run_cons n s u hstep).trans hrun, ht⟩

/-- Settles O56: the reset of a well-formed source satisfies the invariant `State.FaultFree`, which every step
keeps. -/
theorem wellFormedSourceNeverFaults : Obligations.WellFormedSourceNeverFaults := by
  intro b hb n
  obtain ⟨s, hrun, hs⟩ := (wellFormedText_faultFree hb).run n
  exact ⟨s, hrun, hs.noFault⟩

end Sys2Proof.Machine
end

section
/-!
### What the loader makes of a text (40_program_loader.md R58 to R71)

A text is cut into lines (`linesOf_join`), each line gives one record (`load_prog`), and the symbol table is the
list of the labels with their line numbers (`loadLines_sym`). The statements about duplicate labels and label-only
lines read the keys of the table before the line from that list.
-/

namespace Sys2Proof

/-! #### Lines of a text -/

/-- The pieces, each with a separator behind it, give back the text with a separator behind it. -/
theorem cutAt_flatMap_sep (c : Byte) (t : Text) :
    ((cutAt c t).1 :: (cutAt c t).2).flatMap (fun p => p ++ [c]) = t ++ [c] := by
  induction t with
  | nil => rfl
  | cons b t ih =>
    rw [List.flatMap_cons] at ih
    by_cases hb : b = c
    · simpa [cutAt, hb] using ih
    · simpa [cutAt, hb] using ih

/-- The lines are the pieces, without the last one where it is empty. -/
theorem linesOf_pieces (t : Text) : ∃ init last,
    (cutAt Config.lineSep t).1 :: (cutAt Config.lineSep t).2 = init ++ [last] ∧
      linesOf t = if last = [] then init else init ++ [last] := by
  obtain h | ⟨init, last, h⟩ := List.eq_nil_or_concat' ((cutAt Config.lineSep t).1 :: (cutAt Config.lineSep t).2)
  · cases h
  · exact ⟨init, last, h, by simp [linesOf, h]⟩

theorem lineSep_not_mem_pieces {t p : Text} (h : p ∈ (cutAt Config.lineSep t).1 :: (cutAt Config.lineSep t).2) :
    Config.lineSep ∉ p := by
  obtain rfl | h := List.mem_cons.1 h
  · exact sep_not_mem_cutAt_fst _ t
  · exact sep_not_mem_cutAt_snd _ t p h

theorem lineSep_not_mem_linesOf {t line : Text} (h : line ∈ linesOf t) : Config.lineSep ∉ line := by
  obtain ⟨init, last, hpieces, hlines⟩ := linesOf_pieces t
  apply lineSep_not_mem_pieces (t := t)
  rw [hlines] at h
  rw [hpieces]
  split at h
  · exact List.mem_append_left _ h
  · exact h

/-- Ended lines are empty or end with LF. -/
theorem flatMap_sep_ends (c : Byte) (lines : List Text) :
    lines.flatMap (fun p => p ++ [c]) = [] ∨ (lines.flatMap fun p => p ++ [c]).getLast? = some c := by
  obtain rfl | ⟨init, last, rfl⟩ := lines.eq_nil_or_concat'
  · exact .inl rfl
  · exact .inr (by simp [← List.append_assoc])

/-- The lines, each ended, give back the text with its last line ended. -/
theorem linesOf_join (t : Text) : ((linesOf t).flatMap fun line => line ++ [Config.lineSep]) =
    if t = [] ∨ t.getLast? = some Config.lineSep then t else t ++ [Config.lineSep] := by
  obtain ⟨init, last, hpieces, hlines⟩ := linesOf_pieces t
  have hjoin := cutAt_flatMap_sep Config.lineSep t
  rw [hpieces] at hjoin
  have ht : init.flatMap (fun p => p ++ [Config.lineSep]) ++ last = t := by
    simpa [← List.append_assoc] using hjoin
  rw [hlines]
  by_cases hlast : last = []
  · rw [if_pos hlast]
    rw [hlast, List.append_nil] at ht
    rw [ht, if_pos (ht ▸ flatMap_sep_ends _ init)]
  · have hsep : Config.lineSep ∉ last := lineSep_not_mem_pieces (t := t) (by simp [hpieces])
    have hend : ¬(t = [] ∨ t.getLast? = some Config.lineSep) := by
      rw [← ht, List.getLast?_append_of_ne_nil _ hlast, List.append_eq_nil_iff]
      rintro (⟨-, h⟩ | h)
      · exact hlast h
      · exact hsep (List.mem_of_getLast? h)
    rw [if_neg hlast, if_neg hend, hjoin]

namespace Machine

/-! #### The tables of loaded lines -/

/-- The record that a line adds to the program (40_program_loader.md R59 to R63). -/
def LineRecord (line : Text) (r : Record) : Prop := ∃ raw, rawRecord line = .ok raw ∧ r = raw.finalStrip

/-- The labels of the lines from number `i` on, with their line numbers. -/
def labelEntries (i : Nat) (lines : List Text) : List (Text × Nat) :=
  (lines.zipIdx i).filterMap fun p => (lineLabel p.1).map fun l => (l, p.2)

theorem labelEntries_cons (i : Nat) (line : Text) (lines : List Text) :
    labelEntries i (line :: lines) =
      ((lineLabel line).map fun l => (l, i)).toList ++ labelEntries (i + 1) lines := by
  unfold labelEntries
  rw [List.zipIdx_cons, List.filterMap_cons]
  cases lineLabel line <;> rfl

theorem mem_labelEntries (lines : List Text) (l : Text) (k : Nat) :
    (l, k) ∈ labelEntries 0 lines ↔ ∃ line, lines[k]? = some line ∧ lineLabel line = some l := by
  simp [labelEntries, List.mem_zipIdx_iff_getElem?]

theorem labelEntries_keys (i : Nat) (lines : List Text) :
    (labelEntries i lines).map (·.1) = definedLabels lines := by
  induction lines generalizing i with
  | nil => rfl
  | cons line lines ih =>
    rw [labelEntries_cons, definedLabels_cons, List.map_append, ih]
    cases lineLabel line <;> rfl

theorem length_labelEntries (i : Nat) (lines : List Text) :
    (labelEntries i lines).length = (lines.filter fun line => (lineLabel line).isSome).length := by
  rw [← List.length_map (f := (·.1)), labelEntries_keys, definedLabels, List.length_filterMap_eq_countP,
    List.countP_eq_length_filter]

theorem addLabel_eq {i : Nat} {label : Option Text} {sym sym' : List (Text × Nat)}
    (h : addLabel i label sym = .ok sym') : sym' = sym ++ (label.map fun l => (l, i)).toList := by
  obtain ⟨rfl, rfl⟩ | ⟨l, rfl, -, rfl⟩ := addLabel_ok h <;> simp

/-- Loading a first line, and then the others. -/
theorem loadLines_cons {i : Nat} {line : Text} {lines : List Text} {t t' : Tables}
    (h : loadLines i (line :: lines) t = .ok t') :
    ∃ t1, loadLine i line t = .ok t1 ∧ loadLines (i + 1) lines t1 = .ok t' := by
  unfold loadLines at h
  split at h
  · cases h
  · exact ⟨_, ‹_›, h⟩

/-- Loading adds one record per line, in order, and one symbol entry per label. -/
theorem loadLines_ok {i : Nat} {lines : List Text} {t t' : Tables} (h : loadLines i lines t = .ok t') :
    (∃ prog, t'.prog = t.prog ++ prog ∧ List.Forall₂ LineRecord lines prog) ∧
      t'.sym = t.sym ++ labelEntries i lines := by
  induction lines generalizing i t with
  | nil =>
    obtain rfl : t = t' := by simpa [loadLines] using h
    exact ⟨⟨[], by simp, .nil⟩, by simp [labelEntries]⟩
  | cons line lines ih =>
    obtain ⟨t1, hline, hlines⟩ := loadLines_cons h
    obtain ⟨sym, raw, hsym, hraw, rfl⟩ := loadLine_ok hline
    obtain ⟨⟨prog, hprog, hrecords⟩, hsym'⟩ := ih hlines
    refine ⟨⟨raw.finalStrip :: prog, by simp [hprog], .cons ⟨raw, hraw, rfl⟩ hrecords⟩, ?_⟩
    rw [hsym', addLabel_eq hsym, labelEntries_cons, List.append_assoc]

theorem load_prog {b : Text} {t : Tables} (h : load (.text b) = .ok t) :
    List.Forall₂ LineRecord (linesOf b) t.prog := by
  obtain ⟨⟨prog, hprog, hrecords⟩, -⟩ := loadLines_ok h
  rwa [hprog]

theorem loadLines_sym {lines : List Text} {t : Tables} (h : loadLines 0 lines Tables.empty = .ok t) :
    t.sym = labelEntries 0 lines := (loadLines_ok h).2

/-- A label is a key after some lines when one of them has it. -/
theorem lookup_loadLines_isSome {lines : List Text} {t : Tables} (h : loadLines 0 lines Tables.empty = .ok t)
    (l : Text) : (t.sym.lookup l).isSome = true ↔ ∃ line ∈ lines, lineLabel line = some l := by
  rw [lookup_isSome_iff, loadLines_sym h, labelEntries_keys, definedLabels, List.mem_filterMap]

/-- With distinct keys, looking a key up finds each of the entries. -/
theorem lookup_eq_some_iff_mem {m : List (Text × Nat)} (h : (m.map (·.1)).Nodup) (l : Text) (k : Nat) :
    m.lookup l = some k ↔ (l, k) ∈ m := by
  refine ⟨mem_of_lookup, fun hmem => ?_⟩
  obtain ⟨k', hk'⟩ := Option.isSome_iff_exists.1 ((lookup_isSome_iff l m).2 (List.mem_map_of_mem hmem))
  have := List.inj_on_of_nodup_map h (mem_of_lookup hk') hmem rfl
  rw [hk', (Prod.mk.inj this).2]

/-! #### Loader faults -/

/-- The line after lines that load decides a fault of the whole text. -/
theorem load_error_of_line {b : Text} {pre post : List Text} {line : Text} {t : Tables} {c : Cause}
    (hb : linesOf b = pre ++ line :: post) (hpre : loadLines 0 pre Tables.empty = .ok t)
    (hline : loadLine pre.length line t = .error c) : load (.text b) = .error c := by
  simp [load, hb, loadLines_append, hpre, loadLines, hline]

theorem loadLine_dupLabel {i : Nat} {line l : Text} {t : Tables} (hl : lineLabel line = some l)
    (hkey : (t.sym.lookup l).isSome = true) : loadLine i line t = .error (.dupLabel i) := by
  simp [loadLine, addLabel, hl, hkey, Config.dupLabel]

theorem loadLine_labelOnlyLine {i : Nat} {line l : Text} {t : Tables} (hl : lineLabel line = some l)
    (hkey : ¬(t.sym.lookup l).isSome = true) (hs : Config.tokenSep ∉ line) :
    loadLine i line t = .error (.labelOnlyLine i) := by
  have hraw : rawRecord line = .error .labelOnlyLine :=
    (rawRecord_eq_error_iff line).2 ⟨by simp [hl], (cutAt_snd_nil_iff _ line).2 hs⟩
  simp [loadLine, addLabel, hl, hkey, hraw]

theorem resetWith_of_load_error {src : Source} {c : Cause} (h : load src = .error c) :
    State.resetWith src = State.reset.raise c := by
  simp only [State.resetWith, h]

end Machine

open Machine

/-- Settles O11: the cut by `linesOf_join`, the records by `load_prog`. -/
theorem loadMakesOneRecordPerLine : Obligations.LoadMakesOneRecordPerLine := by
  intro b
  refine ⟨fun _ => lineSep_not_mem_linesOf, linesOf_join b, fun t h => ?_⟩
  have hrecords := load_prog h
  refine ⟨hrecords.length_eq.symm, fun k line hline => ?_⟩
  obtain ⟨hk, rfl⟩ := List.getElem?_eq_some_iff.1 hline
  have hk' : k < t.prog.length := hrecords.length_eq ▸ hk
  obtain ⟨raw, hraw, hr⟩ := hrecords.get hk hk'
  exact ⟨raw, hraw, by rw [List.getElem?_eq_getElem hk', ← hr]; rfl⟩

/-- Settles O12: the table is the list `labelEntries` of the labels with their line numbers, and its keys are distinct,
so that a lookup finds each entry. -/
theorem loadedSymbolTable : Obligations.LoadedSymbolTable := by
  intro b t h
  have hnodup := (load_loaded h).labels
  have hsym : t.sym = labelEntries 0 (linesOf b) := loadLines_sym h
  refine ⟨fun l k => ?_, hnodup, ?_⟩
  · rw [lookup_eq_some_iff_mem hnodup, hsym, mem_labelEntries]
  · rw [hsym, length_labelEntries]

/-- Settles O13: loaded tables have the counters (`load_counted`), inside the program (`load_loaded`). -/
theorem loadedCounters : Obligations.LoadedCounters := by
  intro b t h
  have hzero : ∀ {k c}, t.ctr.lookup k = some c → c = 0 := fun hc => (load_counted h).zero _ (mem_of_lookup hc)
  refine ⟨fun k r hr hb ho => ?_, fun k c hc => ⟨hzero hc, (load_loaded h).ctrBound _ (mem_of_lookup hc)⟩⟩
  obtain ⟨c, hc⟩ := Option.isSome_iff_exists.1 ((load_counted h).present k r hr hb ho)
  rw [hc, hzero hc]

/-- Settles O14: the label of an earlier line is a key when line `i` is loaded. -/
theorem duplicateLabelFaults : Obligations.DuplicateLabelFaults := fun _ _ _ _ l _ hb hpre hl hearlier =>
  load_error_of_line hb hpre (loadLine_dupLabel hl ((lookup_loadLines_isSome hpre l).2 hearlier))

/-- Settles O15: a label of no earlier line is no key, so the missing mnemonic is what stops line `i`. -/
theorem labelOnlyLineFaults : Obligations.LabelOnlyLineFaults := by
  intro b pre post line l t hb hpre hl hnew hs
  refine load_error_of_line hb hpre (loadLine_labelOnlyLine hl ?_ hs)
  rw [lookup_loadLines_isSome hpre]
  exact fun ⟨line', hmem, hl'⟩ => hnew line' hmem hl'

/-- Settles O54: a source that loads starts with the invariant; a loader fault is recorded in the reset state and is
not the model's own check. -/
theorem everyLoadMeetsInvariant : Obligations.EveryLoadMeetsInvariant := by
  intro src
  cases h : load src with
  | ok t => exact inv_of_load h
  | error c =>
    have hreset : State.reset.Inv := inv_of_load (src := .unreadable) rfl
    rw [resetWith_of_load_error h]
    apply hreset.raise
    obtain ⟨i, rfl | rfl⟩ := load_error h <;> simp

/-- Settles O16: the fault register of the reset state is what `done` and `step` read: with it set, `done` is not
reported and a step answers the fault. -/
theorem loaderFaultStopsAtReset : Obligations.LoaderFaultStopsAtReset := by
  intro src c h
  rw [resetWith_of_load_error h]
  exact ⟨rfl, rfl, rfl, rfl⟩

end Sys2Proof
end

section
/-!
### The data-hazard test (41_fetch_unit.md R79)
-/

namespace Sys2Proof.Machine

theorem tokenContains_iff (t : Option Text) (d : Text) :
    tokenContains t d = true ↔ ∃ u, t = some u ∧ d <:+: u := by
  cases t with
  | none => simp [tokenContains]
  | some u => simp [tokenContains, containsText_iff]

/-- The tokens of a record that are texts: its label if it has one, its mnemonic, its operands. -/
theorem some_mem_tokensOf (r : Record) (t : Text) :
    some t ∈ tokensOf r ↔ r.label = some t ∨ r.mnemonic = t ∨ t ∈ r.operands := by
  simp [tokensOf, eq_comm (a := some t)]

theorem hazardWith_iff (r : Record) (d : Text) :
    hazardWith r d = true ↔ ∃ t, some t ∈ tokensOf r ∧ d <:+: t := by
  rw [hazardWith, List.any_eq_true]
  constructor
  · rintro ⟨x, hx, hc⟩
    obtain ⟨t, rfl, ht⟩ := (tokenContains_iff x d).1 hc
    exact ⟨t, hx, ht⟩
  · rintro ⟨t, hx, ht⟩
    exact ⟨some t, hx, (tokenContains_iff _ d).2 ⟨t, rfl, ht⟩⟩

/-- Settles O8: the hazard test asks every token, and the sentinel is no text (`hazardWith_iff`). -/
theorem hazardTestsEveryToken : Obligations.HazardTestsEveryToken := by
  intro r d
  rw [hazardWith_iff]
  refine exists_congr fun t => ?_
  rw [some_mem_tokensOf]
  exact and_congr_right fun _ => exists₂_congr fun _ _ => eq_comm

end Sys2Proof.Machine
end

section
/-!
### Where the fetch unit stops (41_fetch_unit.md R76, R80, R86, R88)

The three ways a cycle leaves the fetch cursor where it is: the latency cycle, a stalling check, and a check passed with
`fetch_status` held or `fetch_pos` at `last`. What a completed cycle can do at all is `completes_cases`.
-/

namespace Sys2Proof.Machine

/-- A fetch stall that the write-back unit does not release (43_writeback_unit.md R96). -/
theorem not_fetchFreed {s : State} (hs : s.fetchStatus = .stalled) (hw : s.writebackPos ≠ s.execPos) :
    ¬FetchFreed s := by
  rintro (hf | he)
  · simp [hs] at hf
  · exact hw he

/-- An instruction that passes its control check stays where fetch is held or `fetch_pos` is `last`. -/
theorem exec_passes_stays {i : Instr} {s : State} (h : ReachesControl s i.record)
    (hc : controlOf i s.seen = .ok false) (hno : ¬(FetchFreed s ∧ s.fetchPos ≠ s.last)) :
    exec i s = .next (s.afterStay (fetchStatusAfterWriteBack s)) := by
  apply exec_eq_of_result
  rw [cycleResult_control h, hc]
  exact if_neg hno

/-- Settles O20: of the cycles of `completes_cases` only one that found fetch freed leaves it free or moves. -/
theorem onlyWriteBackFreesFetch : Obligations.OnlyWriteBackFreesFetch := by
  intro i s t h hs hw
  have hno := not_fetchFreed hs hw
  obtain ⟨-, rfl⟩ | ⟨fs, -, rfl, hfree⟩ | ⟨dst, ctr, -, -, hf, -⟩ := completes_cases h
  · exact ⟨rfl, rfl, rfl⟩
  · cases fs with
    | free => exact absurd (hfree rfl).1 hno
    | stalled => exact ⟨rfl, rfl, rfl⟩
  · exact absurd hf hno

/-- Settles O22: back-pressure ends the fetch unit before it reads any record (`cycleResult_latency`). -/
theorem latencyCycle : Obligations.LatencyCycle := fun i _ h =>
  exec_eq_of_result (cycleResult_latency h i)

/-- Settles O24: the scan ends at its first hazard (`dataHazard_stalls`). -/
theorem dataHazardStalls : Obligations.DataHazardStalls := fun _ _ _ ha hk =>
  exec_eq_of_result (cycleResult_hazard ha hk)

/-- Settles O25: fetch is not freed, so nothing is resolved and the flag stays. -/
theorem stickyFlagHoldsFetch : Obligations.StickyFlagHoldsFetch := by
  intro i s h hc hs hw
  have hno := not_fetchFreed hs hw
  rw [exec_passes_stays h (controlOf_passes hc) fun hm => hno hm.1, fetchStatusAfterWriteBack_stalled hno]

/-- Settles O26: `fetch_pos` is `last`, so nothing is resolved, and fetch ends free. -/
theorem lastIsNeverLeft : Obligations.LastIsNeverLeft := by
  intro i s h hc hf hl
  rw [exec_passes_stays h (controlOf_passes hc) fun hm => hm.2 hl, (fetchStatusAfterWriteBack_free_iff s).2 hf]

/-- Settles O27: by `completes_cases` the cursor or the counters change only where the instruction is performed, and
`resolves_dst` says where it goes. -/
theorem fetchMovesOnlyWhenFree : Obligations.FetchMovesOnlyWhenFree := by
  intro i s t h
  obtain ⟨-, rfl⟩ | ⟨fs, -, rfl, -⟩ | ⟨dst, ctr, -, rfl, -, hl, hres⟩ := completes_cases h
  · exact ⟨fun hne => (hne.elim (· rfl) (· rfl)).elim, .inl rfl⟩
  · exact ⟨fun hne => (hne.elim (· rfl) (· rfl)).elim, .inl rfl⟩
  · exact ⟨fun _ => ⟨rfl, rfl, hl⟩, .inr ((resolves_dst hres).imp_right fun ⟨l, hsym, _⟩ => ⟨l, hsym⟩)⟩

end Sys2Proof.Machine
end

section
/-!
### The control stalls (41_fetch_unit.md R82 to R84)

For each class the control check stalls if and only if the spec's condition holds. A stall leaves fetch STALLED
(`exec_control_stalls`); without one, a completed cycle that found fetch freed leaves it FREE.
-/

namespace Sys2Proof.Machine

theorem WritesBackOther.not_writesBack {s : State} {m : Text} (h : WritesBackOther s m) : ¬WritesBack s m := by
  obtain ⟨r, hr, hm⟩ := h
  rintro ⟨r', hr', hm'⟩
  obtain rfl := Option.some.inj (hr.symm.trans hr')
  exact hm hm'

theorem Completes.not_raise {i : Instr} {s t : State} (h : Completes i s t) (c : Cause) :
    exec i s ≠ .next (s.raise c) := by
  intro he
  obtain rfl := next_inj (he.symm.trans h.1)
  simpa using h.2

/-- A completed cycle whose control check did not stall leaves a freed fetch unit free. -/
theorem Completes.fetch_free {i : Instr} {s t : State} (h : Completes i s t) (hr : ReachesControl s i.record)
    (hf : FetchFreed s) (hc : controlOf i s.seen ≠ .ok true) : t.fetchStatus = .free := by
  cases hcontrol : controlOf i s.seen with
  | error c => exact absurd (exec_eq_of_fault (by rw [cycleResult_control hr, hcontrol])) (h.not_raise c)
  | ok stall =>
    cases stall with
    | true => exact absurd hcontrol hc
    | false =>
      by_cases hl : s.fetchPos = s.last
      · have he := exec_passes_stays hr hcontrol fun hm => hm.2 hl
        obtain rfl := next_inj (he.symm.trans h.1)
        exact (fetchStatusAfterWriteBack_free_iff s).2 hf
      · rcases resolveOf_cases hcontrol with ⟨dst, ctr, hres⟩ | ⟨e, he, -⟩
        · obtain rfl := next_inj ((exec_performs hr hcontrol hf hl hres).symm.trans h.1)
          rfl
        · refine absurd (exec_eq_of_fault ?_) (h.not_raise e)
          rw [cycleResult_control hr, hcontrol]
          simp only [if_pos (And.intro hf hl), he]

theorem controlOf_jal_stalls_iff {l : Option Text} {ops : List Text} {s : State} :
    controlOf (.jal l ops) s.seen = .ok true ↔ WritesBackOther s Config.mnJump := by
  have hseen : s.seen.prog[s.seen.writebackPos]? = s.prog[s.execPos]? := rfl
  simp only [controlOf, jumpControl, writebackMnemonic, readProg, hseen, WritesBackOther]
  cases s.prog[s.execPos]? <;> simp [jumpStalls]

/-- The control check of a counted branch whose fields can be read, for a condition `p` on counter and threshold
under which it stalls unless `m` writes back. -/
theorem branchControl_stalls_iff {s : State} {r : Record} {stalls : Int → Int → Text → Bool} {t c : Int} {p : Prop}
    {m : Text} (h : BranchReads s r.operands t c) (hstalls : ∀ w, stalls c t w = true ↔ p ∧ w ≠ m) :
    branchControl stalls r s.seen = .ok true ↔ p ∧ WritesBackOther s m := by
  constructor
  · intro hb
    obtain ⟨t', c', w, h', hw, hs⟩ := branchControl_ok hb
    obtain ⟨rfl, rfl⟩ := h.unique h'
    obtain ⟨hp, hm⟩ := (hstalls w.mnemonic).1 hs.symm
    exact ⟨hp, w, hw, hm⟩
  · rintro ⟨hp, w, hw, hm⟩
    rw [branchControl_seen h hw, (hstalls w.mnemonic).2 ⟨hp, hm⟩]

theorem controlOf_bge_stalls_iff {l : Option Text} {ops : List Text} {s : State} {t c : Int}
    (h : BranchReads s ops t c) :
    controlOf (.bge l ops) s.seen = .ok true ↔ t ≤ c ∧ WritesBackOther s Config.mnBr1 :=
  branchControl_stalls_iff (r := (Instr.bge l ops).record) h fun w => by simp [br1Stalls, br1Taken]

theorem controlOf_ble_stalls_iff {l : Option Text} {ops : List Text} {s : State} {t c : Int}
    (h : BranchReads s ops t c) :
    controlOf (.ble l ops) s.seen = .ok true ↔ c ≤ t ∧ WritesBackOther s Config.mnBr2 :=
  branchControl_stalls_iff (r := (Instr.ble l ops).record) h fun w => by simp [br2Stalls, br2Taken]

/-- Both sides of a control stall, from the condition under which the check stalls. -/
theorem control_stall_of_iff {i : Instr} {s : State} {p : Prop} {m : Text} (h : ReachesControl s i.record)
    (hiff : controlOf i s.seen = .ok true ↔ p ∧ WritesBackOther s m) :
    (p → WritesBackOther s m → exec i s = .next (s.afterStay .stalled)) ∧
    (¬p ∨ WritesBack s m → FetchFreed s → ∀ t, Completes i s t → t.fetchStatus = .free) := by
  refine ⟨fun hp hw => exec_control_stalls h (hiff.2 ⟨hp, hw⟩), fun hpass hf t ht => ?_⟩
  refine ht.fetch_free h hf fun hstall => ?_
  obtain ⟨hp, hother⟩ := hiff.1 hstall
  exact hpass.elim (· hp) hother.not_writesBack

/-- Settles O30: a `jal` stalls exactly when another mnemonic writes back. -/
theorem jalControlStall : Obligations.JalControlStall := by
  intro l ops s h
  have hiff : controlOf (.jal l ops) s.seen = .ok true ↔ True ∧ WritesBackOther s Config.mnJump :=
    controlOf_jal_stalls_iff.trans (iff_of_eq (true_and _)).symm
  obtain ⟨hstalls, hfree⟩ := control_stall_of_iff h hiff
  exact ⟨hstalls trivial, fun hw => hfree (.inr hw)⟩

/-- Settles O34: a `bge` stalls exactly when its counter has reached the threshold and another mnemonic writes
back. -/
theorem bgeControlStall : Obligations.BgeControlStall := by
  intro l ops s t c h hb
  simpa only [Int.not_le] using control_stall_of_iff h (controlOf_bge_stalls_iff hb)

/-- Settles O37: a `ble` stalls exactly when its counter has not exceeded the threshold and another mnemonic writes
back. -/
theorem bleControlStall : Obligations.BleControlStall := by
  intro l ops s t c h hb
  simpa only [Int.not_le] using control_stall_of_iff h (controlOf_ble_stalls_iff hb)

end Sys2Proof.Machine
end

section
/-!
### Performed transfers (41_fetch_unit.md R85, 47_instr_jal.md, 48_instr_counted_branches.md)

Each is `exec_performs`: the control check passes (`controlOf_passes`) and `Resolves` holds of what is written.
-/

namespace Sys2Proof.Machine

theorem writesBack_or_other {s : State} (h : ∃ r, s.prog[s.execPos]? = some r) (m : Text) :
    WritesBack s m ∨ WritesBackOther s m := by
  obtain ⟨r, hr⟩ := h
  exact (eq_or_ne r.mnemonic m).imp (⟨r, hr, ·⟩) (⟨r, hr, ·⟩)

/-- A performed instruction that sets its own counter to `v`, and what the counter then reads. -/
theorem exec_performs_counting {i : Instr} {s : State} {dst : Nat} {v c : Int} (h : ReachesControl s i.record)
    (hpass : ControlPasses i s) (hf : FetchFreed s) (hl : s.fetchPos ≠ s.last)
    (hc : s.ctr.lookup s.fetchPos = some c) (hr : Resolves i s dst (putCtr s.fetchPos v s.ctr)) :
    exec i s = .next (s.afterMove dst (putCtr s.fetchPos v s.ctr)) ∧
      (putCtr s.fetchPos v s.ctr).lookup s.fetchPos = some v :=
  ⟨exec_performs h (controlOf_passes hpass) hf hl hr, lookup_putCtr_self hc v⟩

/-- Settles O29: a `jal` that passes its check goes to the value of its label and writes no counter. -/
theorem jalJumps : Obligations.JalJumps := fun l ops _ _ h hw hf hl hn =>
  exec_performs h (controlOf_passes (i := .jal l ops) hw) hf hl ⟨hn, rfl⟩

/-- Settles O32: below its threshold a `bge` passes whatever writes back, and its label is not read. -/
theorem bgeNotTaken : Obligations.BgeNotTaken := by
  intro l ops s t c h hb hlt hf hl hw
  have hpass : ControlPasses (.bge l ops) s := ⟨t, c, hb, (writesBack_or_other hw _).imp_right (⟨hlt, ·⟩)⟩
  exact exec_performs_counting h hpass hf hl hb.2 ⟨t, c, hb, .inr ⟨hlt, rfl, rfl⟩⟩

/-- Settles O33: a released `bge` at its threshold goes to its label with the counter reset. -/
theorem bgeTaken : Obligations.BgeTaken := by
  intro l ops s t c dst h hb hle hw hf hl hn
  have hpass : ControlPasses (.bge l ops) s := ⟨t, c, hb, .inl hw⟩
  exact exec_performs_counting h hpass hf hl hb.2 ⟨t, c, hb, .inl ⟨hle, hn, rfl⟩⟩

/-- Settles O35: a released `ble` not above its threshold goes to its label with the counter incremented. -/
theorem bleTaken : Obligations.BleTaken := by
  intro l ops s t c dst h hb hle hw hf hl hn
  have hpass : ControlPasses (.ble l ops) s := ⟨t, c, hb, .inl hw⟩
  exact exec_performs_counting h hpass hf hl hb.2 ⟨t, c, hb, .inl ⟨hle, hn, rfl⟩⟩

/-- Settles O36: above its threshold a `ble` passes whatever writes back, and its label is not read. -/
theorem bleNotTaken : Obligations.BleNotTaken := by
  intro l ops s t c h hb hlt hf hl hw
  have hpass : ControlPasses (.ble l ops) s := ⟨t, c, hb, (writesBack_or_other hw _).imp_right (⟨hlt, ·⟩)⟩
  exact exec_performs_counting h hpass hf hl hb.2 ⟨t, c, hb, .inr ⟨hlt, rfl, rfl⟩⟩

end Sys2Proof.Machine
end

section
/-!
### The execute unit in a completed cycle (42_execute_unit.md R91 to R93)

`ExecuteStalls` and `ExecuteAdvances` exclude each other, so each says which of the cycles of `completes_cases` it was.
-/

namespace Sys2Proof.Machine

/-- One status and one record at `exec_pos` decide whether the execute unit stalls. -/
theorem ExecuteAdvances.not_stalls {s : State} (h : ExecuteAdvances s) : ¬ExecuteStalls s := by
  rintro ⟨hfree, r, hr, hl⟩
  obtain hstalled | ⟨r', hr', hl'⟩ := h
  · simp [hfree] at hstalled
  · obtain rfl := Option.some.inj (hr.symm.trans hr')
    simp [hl] at hl'

theorem Completes.execute_stalls {i : Instr} {s t : State} (h : Completes i s t) (hs : ExecuteStalls s) :
    t.executeStatus = .stalled ∧ t.execPos = s.execPos := by
  obtain ⟨-, rfl⟩ | ⟨fs, ha, -⟩ | ⟨dst, ctr, ha, -⟩ := completes_cases h
  · exact ⟨rfl, rfl⟩
  · exact absurd hs ha.not_stalls
  · exact absurd hs ha.not_stalls

/-- Whatever the fetch unit then does: the cursor copied is `fetch_pos` before the cycle. -/
theorem Completes.execute_advances {i : Instr} {s t : State} (h : Completes i s t) (ha : ExecuteAdvances s) :
    t.executeStatus = .free ∧ t.execPos = s.fetchPos := by
  obtain ⟨hs, -⟩ | ⟨fs, -, rfl, -⟩ | ⟨dst, ctr, -, rfl, -⟩ := completes_cases h
  · exact absurd hs ha.not_stalls
  · exact ⟨rfl, rfl⟩
  · exact ⟨rfl, rfl⟩

/-- Settles O21: a stalled unit and a record without latency advance, a record that needs latency stalls. -/
theorem executeUnitCases : Obligations.ExecuteUnitCases := by
  intro i s t h
  refine ⟨fun hstalled => h.execute_advances (.inl hstalled), fun hfree r hr => ⟨fun hl => ?_, fun hl => ?_⟩⟩
  · exact h.execute_stalls ⟨hfree, r, hr, hl⟩
  · exact h.execute_advances (.inr ⟨r, hr, hl⟩)

end Sys2Proof.Machine
end

section
/-!
### The write-back unit in a completed cycle (43_writeback_unit.md R96 to R98)

A cycle that leaves fetch stalled kept `fetch_pos`. Either it was a latency cycle, and then the write-back cursor has
caught up with the execute cursor, or the execute cursor has reached `fetch_pos`, and then the next cycle cannot move
it, so that the write-back cursor catches up in that cycle.
-/

namespace Sys2Proof.Machine

theorem Completes.writebackPos_eq {i : Instr} {s t : State} (h : Completes i s t) : t.writebackPos = s.execPos := by
  obtain ⟨-, rfl⟩ | ⟨fs, -, rfl, -⟩ | ⟨dst, ctr, -, rfl, -⟩ := completes_cases h
  · rfl
  · rfl
  · rfl

/-- The execute status a completed cycle leaves tells where its execute cursor went. -/
theorem Completes.execPos_cases {i : Instr} {s t : State} (h : Completes i s t) :
    (t.executeStatus = .stalled ∧ t.execPos = s.execPos) ∨ (t.executeStatus = .free ∧ t.execPos = s.fetchPos) := by
  obtain ⟨hs, -⟩ | ⟨fs, ha, -⟩ | ⟨dst, ctr, ha, -⟩ := completes_cases h
  · exact .inl (h.execute_stalls hs)
  · exact .inr (h.execute_advances ha)
  · exact .inr (h.execute_advances ha)

theorem Completes.fetchPos_of_stalled {i : Instr} {s t : State} (h : Completes i s t)
    (hstalled : t.fetchStatus = .stalled) : t.fetchPos = s.fetchPos := by
  obtain ⟨-, rfl⟩ | ⟨fs, -, rfl, -⟩ | ⟨dst, ctr, -, rfl, -⟩ := completes_cases h
  · rfl
  · rfl
  · cases hstalled

theorem Completes.writebackPos_of_latency {i : Instr} {s t : State} (h : Completes i s t)
    (hlat : t.executeStatus = .stalled) : t.writebackPos = t.execPos := by
  obtain ⟨-, hexec⟩ | ⟨hfree, -⟩ := h.execPos_cases
  · exact h.writebackPos_eq.trans hexec.symm
  · simp [hfree] at hlat

/-- From an execute cursor on the fetch cursor no execute unit moves it. -/
theorem Completes.writebackPos_of_execPos_eq_fetchPos {i : Instr} {s t : State} (h : Completes i s t)
    (heq : s.execPos = s.fetchPos) : t.writebackPos = t.execPos := by
  obtain ⟨-, hexec⟩ | ⟨-, hexec⟩ := h.execPos_cases
  · exact h.writebackPos_eq.trans hexec.symm
  · exact h.writebackPos_eq.trans (heq.trans hexec.symm)

/-- The release condition, met, and what the write-back unit then leaves (43_writeback_unit.md R96). -/
theorem released_of_writebackPos_eq {s : State} (h : s.writebackPos = s.execPos) :
    s.writebackPos = s.execPos ∧ (writeBackUnit s).fetchStatus = .free :=
  ⟨h, (fetchStatusAfterWriteBack_free_iff s).2 (.inr h)⟩

/-- Settles O19: every cycle of `completes_cases` writes the old `exec_pos`. -/
theorem writeBackCopiesCursor : Obligations.WriteBackCopiesCursor := fun _ _ _ h => h.writebackPos_eq

/-- Settles O23: a latency cycle is released in the next cycle; after any other stall the execute cursor stands on
`fetch_pos`, and the write-back cursor reaches it one cycle later. -/
theorem stallIsReleasedWithinTwoCycles : Obligations.StallIsReleasedWithinTwoCycles := by
  intro i j s t u h hstalled h'
  refine ⟨fun hlat => released_of_writebackPos_eq (h.writebackPos_of_latency hlat), ?_⟩
  obtain ⟨hlat, -⟩ | ⟨-, hexec⟩ := h.execPos_cases
  · exact .inl (released_of_writebackPos_eq (h.writebackPos_of_latency hlat))
  · have hcaught : t.execPos = t.fetchPos := hexec.trans (h.fetchPos_of_stalled hstalled).symm
    exact .inr (released_of_writebackPos_eq (h'.writebackPos_of_execPos_eq_fetchPos hcaught))

end Sys2Proof.Machine
end

section
/-!
### The step event (44_cycle_driver.md R99, R100, R102, R104)

A step event runs the cycle of the record at `fetch_pos`, or keeps the state when the run has ended; what a step does
in either case is said by `step_of_fetch` and `step_of_atEnd`. Placing a line makes a state of the first kind: the
record stands at `fetch_pos`, no fault is recorded, and the padding keeps the write-back cursor before `last`.
-/

namespace Sys2Proof.Machine

theorem done_iff (s : State) : s.done = true ↔ s.fault = none ∧ s.atEnd = true := by
  simp [State.done]

theorem result_of_done {s : State} (h : s.done = true) : s.result = some s.cycles := by
  simp [State.result, h]

theorem resetWith_of_load_empty {src : Source} (h : load src = .ok Tables.empty) :
    State.resetWith src = State.reset :=
  resetWith_of_load h

/-- Settles O18: an unreadable source and the empty text load the empty tables, and `count = 0` ends the run. -/
theorem unreadableRunsZeroCycles : Obligations.UnreadableRunsZeroCycles := by
  have hdone : State.reset.done = true := (done_iff _).2 ⟨rfl, rfl⟩
  exact ⟨resetWith_of_load_empty rfl, resetWith_of_load_empty rfl, hdone, result_of_done hdone, rfl⟩

/-- Settles O46: the step runs the instruction of the fetched record (`step_of_fetch`), which is `i`. -/
theorem stepRunsFetchedInstruction : Obligations.StepRunsFetchedInstruction := by
  intro s i hfault hrun hwf hrec
  rw [step_of_fetch hfault hrun hrec, Instr.record_instr hwf]

/-- Settles O47: `done` is an ended run without fault. -/
theorem doneTakesNoCycle : Obligations.DoneTakesNoCycle := by
  intro s hdone
  obtain ⟨hfault, hend⟩ := (done_iff s).1 hdone
  exact ⟨step_of_atEnd hfault hend, result_of_done hdone⟩

/-! #### Placing a line -/

theorem decodeTableWord_eq_some_iff (nbits w : Nat) (i : Instr) :
    decodeTableWord nbits w = some i ↔ decode (tableLine nbits w) = .ok i := by
  unfold decodeTableWord
  cases decode (tableLine nbits w) <;> simp

theorem placeLine_of_rawRecord {line : Text} {raw : Record} (s : State) (h : rawRecord line = .ok raw) :
    placeLine s line = { s with
      prog := placedProg s raw.finalStrip
      sym := placedSym s raw.label
      ctr := placedCtr s raw
      fault := none } := by
  simp only [placeLine, h]

theorem placedLength_le_length_placedProg (s : State) (r : Record) :
    placedLength s ≤ (placedProg s r).length := by
  simp only [placedProg, padProg, List.length_set, List.length_append, List.length_replicate]
  omega

/-- Every cursor stands at least two places before the end. -/
theorem cursors_lt_placedLength (s : State) :
    s.fetchPos + 1 < placedLength s ∧ s.execPos + 1 < placedLength s ∧ s.writebackPos + 1 < placedLength s := by
  unfold placedLength
  omega

theorem placedProg_fetchPos (s : State) (r : Record) : (placedProg s r)[s.fetchPos]? = some r := by
  have hlen := placedLength_le_length_placedProg s r
  obtain ⟨hfetch, -, -⟩ := cursors_lt_placedLength s
  unfold placedProg at hlen ⊢
  exact List.getElem?_set_self (by rw [List.length_set] at hlen; omega)

theorem atEnd_eq_false_of_lt {s : State} (h : s.writebackPos + 1 < s.count) : s.atEnd = false := by
  simp only [State.atEnd, State.last, Bool.or_eq_false_iff, beq_eq_false_iff_ne]
  omega

/-- A line the decoder reads as `i` is run as `i` by the step from where it is placed. -/
theorem step_placeLine {line : Text} {i : Instr} (s : State) (h : decode line = .ok i) :
    step (placeLine s line) = exec i (placeLine s line) := by
  obtain ⟨raw, hraw, rfl⟩ := (decode_eq_ok_iff line i).1 h
  rw [placeLine_of_rawRecord s hraw]
  have hlen := placedLength_le_length_placedProg s raw.finalStrip
  obtain ⟨-, -, hwb⟩ := cursors_lt_placedLength s
  exact step_of_fetch rfl (atEnd_eq_false_of_lt (Nat.lt_of_lt_of_le hwb hlen)) (placedProg_fetchPos s _)

/-- Settles O48: a word is decoded as its line, and `withFetchWord` places that line (`step_placeLine`). -/
theorem placedWordRuns : Obligations.PlacedWordRuns := fun s nbits w i h =>
  step_placeLine s ((decodeTableWord_eq_some_iff nbits w i).1 h)

end Sys2Proof.Machine
end

section
/-!
### The sequential cycle and the simultaneous form (44_cycle_driver.md R99, R103)

Each part of `nextState` reads at the start of the cycle what a unit reads in its turn: the values the fetch unit
sees are those of `State.seen`, which the first two units leave. So the parts are equal one by one, with the same
faults in the same order, and `nextState` is `cycleResult`.
-/

namespace Sys2Proof.Machine

/-! #### Computations that may fault -/

@[simp] theorem ok_bind {α β : Type} (a : α) (f : α → Except Cause β) : (Except.ok a >>= f) = f a := rfl
@[simp] theorem error_bind {α β : Type} (c : Cause) (f : α → Except Cause β) :
    (Except.error c >>= f) = .error c := rfl
@[simp] theorem pure_eq_ok {α : Type} (a : α) : (pure a : Except Cause α) = .ok a := rfl
@[simp] theorem need_some {α : Type} (c : Cause) (a : α) : need c (some a) = .ok a := rfl
@[simp] theorem need_none {α : Type} (c : Cause) : need c (none : Option α) = .error c := rfl

/-! #### Reads -/

@[simp] theorem seen_prog (s : State) : s.seen.prog = s.prog := rfl
@[simp] theorem seen_ctr (s : State) : s.seen.ctr = s.ctr := rfl
@[simp] theorem seen_fetchPos (s : State) : s.seen.fetchPos = s.fetchPos := rfl
@[simp] theorem seen_writebackPos (s : State) : s.seen.writebackPos = s.execPos := rfl

theorem readProg_eq_need (s : State) (i : Nat) : readProg s i = need .invariant s.prog[i]? := by
  unfold readProg
  cases s.prog[i]? <;> rfl

theorem readCtr_eq_need (s : State) (i : Nat) : readCtr s i = need .invariant (s.ctr.lookup i) := by
  unfold readCtr
  cases s.ctr.lookup i <;> rfl

theorem needleOf_eq_need (i : Nat) (r : Record) : needleOf i r = need (.shortRecord i) r.operands[0]? := by
  unfold needleOf
  cases r.operands[0]? <;> rfl

theorem jumpTargetOf_eq_need (p : Nat) (r : Record) : jumpTargetOf p r = need (.shortRecord p) r.operands[0]? := by
  unfold jumpTargetOf
  cases r.operands[0]? <;> rfl

theorem branchTargetOf_eq_need (p : Nat) (r : Record) :
    branchTargetOf p r = need (.shortRecord p) r.operands[1]? := by
  unfold branchTargetOf
  cases r.operands[1]? <;> rfl

theorem thresholdOf_eq_thresholdAt (p : Nat) (r : Record) : thresholdOf p r = thresholdAt p r.operands := by
  unfold thresholdOf thresholdAt
  cases r.operands[0]? with
  | none => rfl
  | some t =>
    simp only [need_some, ok_bind]
    cases readThreshold t <;> rfl

theorem readSym_seen_eq_symbolAt (s : State) (p : Nat) (l : Text) : readSym s.seen p l = symbolAt s p l := by
  rw [readSym_seen, readSym, symbolAt]
  cases s.sym.lookup l <;> rfl

theorem writebackMnemonic_seen (s : State) :
    writebackMnemonic s.seen = (do
      let w ← need .invariant s.prog[s.execPos]?
      pure w.mnemonic) := by
  rw [writebackMnemonic, readProg_eq_need, seen_prog, seen_writebackPos]
  cases need .invariant s.prog[s.execPos]? <;> rfl

/-- The scan of `n` indices is the test over their list. -/
theorem scanFrom_eq_anyHazard (s : State) (r : Record) (i n : Nat) :
    scanFrom s r i n = anyHazard s r (List.range' i n) := by
  induction n generalizing i with
  | zero => rfl
  | succ n ih =>
    rw [List.range'_succ, scanFrom, anyHazard, readProg_eq_need]
    cases need .invariant s.prog[i]? with
    | error c => rfl
    | ok ri =>
      rw [ok_bind]
      simp only [ih, needleOf_eq_need]
      cases need (.shortRecord i) ri.operands[0]? <;> rfl

/-- The scan of the fetch unit starts at the new `writeback_pos`, the old `exec_pos`. -/
theorem dataHazard_eq_anyHazard (s : State) (r : Record) :
    dataHazard s.seen r = anyHazard s r (List.range' s.execPos (s.fetchPos - s.execPos)) :=
  (dataHazard_seen s r).trans (scanFrom_eq_anyHazard s r _ _)

/-! #### The execute unit -/

theorem nextExecute_advances {s : State} (h : ExecuteAdvances s) : nextExecute s = .ok (.free, s.fetchPos) := by
  unfold nextExecute
  cases he : s.executeStatus with
  | stalled => rfl
  | free =>
    obtain hs | ⟨r, hr, hl⟩ := h
    · cases he.symm.trans hs
    · simp [hr, hl]

theorem nextExecute_stalls {s : State} (h : ExecuteStalls s) : nextExecute s = .ok (.stalled, s.execPos) := by
  obtain ⟨he, r, hr, hl⟩ := h
  simp [nextExecute, he, hr, hl]

theorem nextExecute_error {s : State} (he : s.executeStatus = .free) (hr : s.prog[s.execPos]? = none) :
    nextExecute s = .error .invariant := by
  simp [nextExecute, he, hr]

/-! #### The control check and the resolution -/

/-- The control check of a counted branch: its reads in the order of 41_fetch_unit.md R87. -/
theorem branchControl_eq_reads (stalls : Int → Int → Text → Bool) (r : Record) (s : State) :
    branchControl stalls r s.seen = (do
      let t ← thresholdAt s.fetchPos r.operands
      let c ← need .invariant (s.ctr.lookup s.fetchPos)
      let w ← need .invariant s.prog[s.execPos]?
      pure (stalls c t w.mnemonic)) := by
  rw [branchControl, thresholdOf_eq_thresholdAt, readCtr_eq_need, writebackMnemonic_seen, seen_fetchPos, seen_ctr]
  cases thresholdAt s.fetchPos r.operands with
  | error c => rfl
  | ok t =>
    cases need .invariant (s.ctr.lookup s.fetchPos) with
    | error c => rfl
    | ok v => cases need .invariant s.prog[s.execPos]? <;> rfl

theorem controlOf_eq_ctrlStall (i : Instr) (s : State) : controlOf i s.seen = ctrlStall i s s.execPos := by
  cases i with
  | generic => rfl
  | lw => rfl
  | sw => rfl
  | jal l ops =>
    rw [controlOf, jumpControl, writebackMnemonic_seen, ctrlStall]
    cases need .invariant s.prog[s.execPos]? <;> rfl
  | bge l ops => exact branchControl_eq_reads br1Stalls _ s
  | ble l ops => exact branchControl_eq_reads br2Stalls _ s

/-- The state with what a resolution writes, the next `fetch_pos` and the counter table. -/
def State.fetched (s : State) (n : Nat × List (Nat × Int)) : State := { s with fetchPos := n.1, ctr := n.2 }

/-- The resolution of a counted branch: its reads in the order of 41_fetch_unit.md R87, the target last. -/
theorem branchResolve_eq_reads (taken : Int → Int → Bool) (next : Int → Int → Int) (r : Record) (s : State) :
    branchResolve taken next r s.seen = s.seen.fetched <$> (do
      let t ← thresholdAt s.fetchPos r.operands
      let c ← need .invariant (s.ctr.lookup s.fetchPos)
      if taken c t then do
        let l ← need (.shortRecord s.fetchPos) r.operands[1]?
        let dst ← symbolAt s s.fetchPos l
        pure (dst, putCtr s.fetchPos (next c t) s.ctr)
      else pure (s.fetchPos + 1, putCtr s.fetchPos (next c t) s.ctr)) := by
  rw [branchResolve, thresholdOf_eq_thresholdAt, readCtr_eq_need, branchTargetOf_eq_need, seen_fetchPos, seen_ctr]
  cases thresholdAt s.fetchPos r.operands with
  | error c => rfl
  | ok t =>
    cases need .invariant (s.ctr.lookup s.fetchPos) with
    | error c => rfl
    | ok v =>
      simp only [readSym_seen_eq_symbolAt, ok_bind]
      cases taken v t with
      | false => rfl
      | true =>
        cases need (.shortRecord s.fetchPos) r.operands[1]? with
        | error c => rfl
        | ok l =>
          simp only [if_true, ok_bind]
          cases symbolAt s s.fetchPos l <;> rfl

theorem resolveOf_eq_nextFetch (i : Instr) (s : State) :
    resolveOf i s.seen = s.seen.fetched <$> nextFetch i s := by
  cases i with
  | generic => rfl
  | lw => rfl
  | sw => rfl
  | jal l ops =>
    rw [resolveOf, jumpResolve, jumpTargetOf_eq_need, seen_fetchPos, nextFetch, Instr.record]
    cases need (.shortRecord s.fetchPos) ops[0]? with
    | error c => rfl
    | ok l =>
      simp only [readSym_seen_eq_symbolAt, ok_bind]
      cases symbolAt s s.fetchPos l <;> rfl
  | bge l ops =>
    rw [resolveOf, branchResolve_eq_reads, nextFetch]
    refine congrArg _ (bind_congr fun t => bind_congr fun v => ?_)
    by_cases h : t ≤ v <;> simp [br1Next, br1Taken, h, Instr.record]
  | ble l ops =>
    rw [resolveOf, branchResolve_eq_reads, nextFetch]
    refine congrArg _ (bind_congr fun t => bind_congr fun v => ?_)
    by_cases h : v ≤ t <;> simp [br2Next, br2Taken, h, Instr.record]

/-! #### The cycle -/

theorem fetchStatusAfterWriteBack_eq (s : State) :
    fetchStatusAfterWriteBack s =
      if s.writebackPos = s.execPos ∧ (s.fetchStatus = .stalled ∨ s.executeStatus = .stalled) then .free
      else s.fetchStatus := by
  simp [fetchStatusAfterWriteBack, releases]

theorem fetchUnit_scanFaults {s : State} {r : Record} {control : State → Except Cause Bool}
    {resolve : State → Except Cause State} {c : Cause} (hz : dataHazard s.seen r = .error c) :
    fetchUnit r control resolve s.seen = .error c := by
  have he : s.seen.executeStatus = .free := rfl
  simp [fetchUnit, he, hz]

theorem fetchUnit_scanStalls {s : State} {r : Record} {control : State → Except Cause Bool}
    {resolve : State → Except Cause State} (hz : dataHazard s.seen r = .ok true) :
    fetchUnit r control resolve s.seen = .ok s.seen.stallFetch := by
  have he : s.seen.executeStatus = .free := rfl
  simp [fetchUnit, he, hz]

/-- When the execute cursor advances, the rest of `nextState` is the fetch unit on the state it sees, with the cycle
counted: the scan, the control check and the resolution in turn. -/
theorem nextState_advances {i : Instr} {s : State} (h : ExecuteAdvances s) :
    nextState i s = State.countCycle <$> fetchUnit i.record (controlOf i) (resolveOf i) s.seen := by
  have hlast : s.prog.length - 1 = s.last := rfl
  unfold nextState
  simp only [nextExecute_advances h, ok_bind, ← fetchStatusAfterWriteBack_eq, ← dataHazard_eq_anyHazard, hlast,
    reduceCtorEq, if_false]
  cases hz : dataHazard s.seen i.record with
  | error c => rw [fetchUnit_scanFaults hz]; rfl
  | ok hazard =>
    cases hazard with
    | true => rw [fetchUnit_scanStalls hz]; rfl
    | false =>
      rw [fetchUnit_seen hz, controlOf_eq_ctrlStall]
      cases ctrlStall i s s.execPos with
      | error c => rfl
      | ok stalls =>
        cases stalls with
        | true => rfl
        | false =>
          simp only [ok_bind, Bool.false_eq_true, if_false, fetchStatusAfterWriteBack_free_iff]
          rw [resolveOf_eq_nextFetch]
          by_cases hm : FetchFreed s ∧ s.fetchPos ≠ s.last
          · simp only [if_pos hm]
            cases nextFetch i s <;> rfl
          · simp only [if_neg hm]
            rfl

/-- The two descriptions agree in each of the three things the execute unit can do. -/
theorem nextState_eq_cycleResult (i : Instr) (s : State) :
    nextState i s = cycleResult (fetchUnit i.record (controlOf i) (resolveOf i)) s := by
  obtain ⟨ha, he⟩ | ⟨hs, -⟩ | ⟨hfree, hnone, he⟩ := executeUnit_cases s
  · rw [nextState_advances ha, cycleResult, he]
    dsimp only
    cases fetchUnit i.record (controlOf i) (resolveOf i) s.seen <;> rfl
  · rw [cycleResult_latency hs, nextState, nextExecute_stalls hs]
    rfl
  · rw [cycleResult, he, nextState, nextExecute_error hfree hnone]
    rfl

/-- Settles O51: `exec` is `cycleResult` with a fault entered as `State.raise` (`cycle_eq`), and `cycleResult` is
`nextState`. -/
theorem cycleEqualsNextStateFunction : Obligations.CycleEqualsNextStateFunction := by
  intro i s
  rw [nextState_eq_cycleResult, exec_eq_cycle, cycle_eq]
  cases cycleResult (fetchUnit i.record (controlOf i) (resolveOf i)) s <;> rfl

end Sys2Proof.Machine
end
section
/-!
### Ordinary instructions (45_instr_generic.md R108, 46_instr_load_store.md R110, R111)

A generic instruction, a load and a store have no control check to pass, and `Resolves` says of each of them that it
goes to the next index and leaves the counters.
-/

namespace Sys2Proof.Machine

/-- Settles O28: each of the three is performed by `exec_performs`, a load and a store as a generic instruction is;
the cycle the last two cost is taken at the execute unit (`latencyCycle`), not here. -/
theorem ordinaryInstructionsAdvance : Obligations.OrdinaryInstructionsAdvance := by
  rintro i s (⟨l, m, ops, rfl⟩ | ⟨l, ops, rfl⟩ | ⟨l, ops, rfl⟩) h hf hl
  · exact exec_generic_advances h hf hl
  · exact exec_performs (i := .lw l ops) h (controlOf_passes trivial) hf hl ⟨rfl, rfl⟩
  · exact exec_performs (i := .sw l ops) h (controlOf_passes trivial) hf hl ⟨rfl, rfl⟩

end Sys2Proof.Machine
end
section
/-!
### A forward jump and its own label (47_instr_jal.md R114)

The needle of a `jal` is the text of its target, and the label of a record is one of its tokens. So the record a forward
`jal` has jumped to stalls on its own label, at the first index of the scan.
-/

namespace Sys2Proof.Machine

/-- The label is one of the tokens the hazard test asks (41_fetch_unit.md R79). -/
theorem hazardWith_label {r : Record} {d : Text} (h : r.label = some d) : hazardWith r d = true :=
  (hazardWith_iff r d).2 ⟨d, (some_mem_tokensOf r d).2 (.inl h), List.infix_refl d⟩

/-- A hazard at `exec_pos`, where the scan begins, ends it (41_fetch_unit.md R78, R80). -/
theorem scanStallsAt_execPos {s : State} {r ri : Record} {d : Text} (hlt : s.execPos < s.fetchPos)
    (hri : s.prog[s.execPos]? = some ri) (hb : isCountedBranch ri = false) (hd : ri.operands[0]? = some d)
    (hz : hazardWith r d = true) : ScanStallsAt s r s.execPos :=
  ⟨le_rfl, hlt, fun _ hle hj => absurd hj hle.not_gt, ri, d, hri, hb, hd, hz⟩

/-- Settles O31: the `jal` is scanned first and is no counted branch, and its needle is the label of the record at
`fetch_pos` (`hazardWith_label`), so fetch stalls (`dataHazardStalls`). -/
theorem forwardJumpHitsItsOwnLabel : Obligations.ForwardJumpHitsItsOwnLabel := by
  intro s l target ops r hjal hlt _ hlabel hadv
  have hjump : isCountedBranch (Instr.jal l (target :: ops)).record = false := rfl
  have hscan : ScanStallsAt s r.instr.record s.execPos := by
    rw [record_instr_record]
    exact scanStallsAt_execPos hlt hjal hjump rfl (hazardWith_label hlabel)
  exact dataHazardStalls r.instr s s.execPos hadv hscan

end Sys2Proof.Machine
end
section
/-!
### How far the cursors come (70_reset_and_hazards.md R146, R148)

A step moves each cursor at most onto the one before it (`step_cursors`). So the cursors leave index 0 one cycle after
another (`State.Filling`), and in straight-line code, where the fetch cursor grows by at most one a cycle, the others
lag it by one and two cycles (`State.Lag`).
-/

namespace Sys2Proof.Machine

/-- A property of every reset that every step keeps holds of every reachable state. -/
theorem Reachable.induct {P : State → Prop} {s : State} (hs : Reachable s)
    (hreset : ∀ src, P (State.resetWith src)) (hstep : ∀ s t, P s → step s = .next t → P t) : P s := by
  induction hs with
  | start src => exact hreset src
  | cycle s t _ hst ih => exact hstep s t ih hst

theorem Reachable.inv {s : State} (h : Reachable s) : s.Inv :=
  h.induct everyLoadMeetsInvariant stepKeepsInvariant

/-! #### The cursors after a step -/

/-- What a cycle that is counted does to the cursors: write-back and execute copy, and fetch stays or goes where the
instruction is resolved to. -/
structure CursorsMove (s t : State) : Prop where
  cycles : t.cycles = s.cycles + 1
  writeback : t.writebackPos = s.execPos
  execute : t.execPos = s.execPos ∨ t.execPos = s.fetchPos
  fetch : t.fetchPos = s.fetchPos ∨
    ∃ r ctr, s.prog[s.fetchPos]? = some r ∧ Resolves r.instr s t.fetchPos ctr

/-- The cycle count and the cursors are as before. -/
structure CursorsStay (s t : State) : Prop where
  cycles : t.cycles = s.cycles
  writeback : t.writebackPos = s.writebackPos
  execute : t.execPos = s.execPos
  fetch : t.fetchPos = s.fetchPos

/-- A step keeps the cursors, at the end of the run or with a fault raised, or is a counted cycle. -/
theorem step_cursors {s t : State} (h : step s = .next t) : CursorsStay s t ∨ CursorsMove s t := by
  obtain ⟨-, ⟨-, rfl⟩ | ⟨-, -, rfl⟩ | ⟨-, r, hr, hexec⟩⟩ := step_cases h
  · exact .inl ⟨rfl, rfl, rfl, rfl⟩
  · exact .inl ⟨rfl, rfl, rfl, rfl⟩
  · obtain ⟨c, he, -⟩ | ⟨-, he⟩ | ⟨fs, -, he, -⟩ | ⟨dst, ctr, -, he, -, -, hres⟩ := exec_cases r.instr s <;>
      obtain rfl := next_inj (he.symm.trans hexec)
    case inl => exact .inl ⟨rfl, rfl, rfl, rfl⟩
    case inr.inl => exact .inr ⟨rfl, rfl, .inl rfl, .inl rfl⟩
    case inr.inr.inl => exact .inr ⟨rfl, rfl, .inr rfl, .inl rfl⟩
    case inr.inr.inr => exact .inr ⟨rfl, rfl, .inr rfl, .inr ⟨r, ctr, hr, hres⟩⟩

/-- Reset with any source leaves the cursors at 0, whether it loads or not (70_reset_and_hazards.md R141). -/
theorem resetWith_cursors (src : Source) : (State.resetWith src).fetchPos = 0 ∧
    (State.resetWith src).execPos = 0 ∧ (State.resetWith src).writebackPos = 0 := by
  cases h : load src with
  | error c => rw [resetWith_of_load_error h]; exact ⟨rfl, rfl, rfl⟩
  | ok t => rw [resetWith_of_load h]; exact ⟨rfl, rfl, rfl⟩

/-! #### The pipeline fills -/

theorem resetWith_filling (src : Source) : (State.resetWith src).Filling :=
  have ⟨hf, he, hw⟩ := resetWith_cursors src
  ⟨fun _ => hf, fun _ => he, fun _ => hw⟩

/-- Each cursor is still at 0 as long as the one before it was at 0 a cycle earlier. -/
theorem State.Filling.step {s t : State} (h : s.Filling) (hst : step s = .next t) : t.Filling := by
  obtain hstay | hmove := step_cursors hst
  · exact ⟨by simpa only [hstay.cycles, hstay.fetch] using h.fetch,
      by simpa only [hstay.cycles, hstay.execute] using h.execute,
      by simpa only [hstay.cycles, hstay.writeback] using h.writeback⟩
  · refine ⟨fun hc => ?_, fun hc => ?_, fun hc => ?_⟩ <;> rw [hmove.cycles] at hc
    · exact absurd hc (Nat.succ_ne_zero _)
    · have hfetch := h.fetch (by omega)
      have hexec := h.execute (by omega)
      exact hmove.execute.elim (·.trans hexec) (·.trans hfetch)
    · exact hmove.writeback.trans (h.execute (by omega))

/-! #### Straight-line code -/

/-- A generic instruction, a load or a store: one that always advances sequentially. -/
abbrev Ordinary (i : Instr) : Prop :=
  (∃ l m ops, i = .generic l m ops) ∨ (∃ l ops, i = .lw l ops) ∨ (∃ l ops, i = .sw l ops)

/-- The records of a straight-line program stand for ordinary instructions. -/
theorem ordinary_of_straightLine {prog : List Record} {r : Record} (h : straightLine prog = true)
    (hr : r ∈ prog) : Ordinary r.instr := by
  have hclass := List.all_eq_true.1 h r hr
  unfold Record.instr
  cases hc : classOf r.mnemonic <;> simp [hc, Ordinary] at hclass ⊢

theorem Ordinary.resolves_dst {i : Instr} (h : Ordinary i) {s : State} {dst : Nat} {ctr : List (Nat × Int)}
    (hres : Resolves i s dst ctr) : dst = s.fetchPos + 1 := by
  obtain ⟨l, m, ops, rfl⟩ | ⟨l, ops, rfl⟩ | ⟨l, ops, rfl⟩ := h <;> exact hres.1

theorem Ordinary.controlPasses {i : Instr} (h : Ordinary i) (s : State) : ControlPasses i s := by
  obtain ⟨l, m, ops, rfl⟩ | ⟨l, ops, rfl⟩ | ⟨l, ops, rfl⟩ := h <;> exact trivial

theorem resetWith_lag (src : Source) : (State.resetWith src).Lag := by
  obtain ⟨hf, he, hw⟩ := resetWith_cursors src
  exact ⟨by omega, by omega, by omega⟩

/-- In straight-line code fetch moves by one index, and the other cursors take over the bound of the one before. -/
theorem State.Lag.step {s t : State} (h : s.Lag) (hline : straightLine s.prog = true)
    (hst : step s = .next t) : t.Lag := by
  obtain ⟨hfetch, hexec, hwb⟩ := h
  obtain hstay | hmove := step_cursors hst
  · exact ⟨by rwa [hstay.fetch, hstay.cycles], by rwa [hstay.execute, hstay.cycles],
      by rwa [hstay.writeback, hstay.cycles]⟩
  · have hdst : t.fetchPos = s.fetchPos ∨ t.fetchPos = s.fetchPos + 1 :=
      hmove.fetch.imp_right fun ⟨r, ctr, hr, hres⟩ =>
        (ordinary_of_straightLine hline (List.mem_of_getElem? hr)).resolves_dst hres
    have hcopy := hmove.execute
    have hcycles := hmove.cycles
    exact ⟨by omega, by omega, by rw [hmove.writeback]; omega⟩

theorem Reachable.lag {s : State} (h : Reachable s) : straightLine s.prog = true → s.Lag := by
  refine h.induct (P := fun s => straightLine s.prog = true → s.Lag) (fun src _ => resetWith_lag src) ?_
  intro s t ih hst hline
  rw [(programIsNeverWritten s t hst).1] at hline
  exact (ih hline).step hline hst

/-- At the end of a run of a program that is not empty the write-back cursor stands on the last index. -/
theorem writebackPos_of_done {s : State} (h : s.done = true) (hpos : 0 < s.count) : s.writebackPos = s.last := by
  obtain ⟨-, hend⟩ := (done_iff s).1 h
  simpa [State.atEnd, hpos.ne'] using hend

/-! #### The statements -/

/-- Settles O60: the cursors of reset are 0, and each step keeps the lag (`State.Lag.step`). -/
theorem stepKeepsLag : Obligations.StepKeepsLag :=
  ⟨resetWith_lag, fun _ _ hline hlag hst => hlag.step hline hst⟩

/-- Settles O57: at the end the write-back cursor is at `count - 1`, and it lags the cycle count by two. -/
theorem straightLineLowerBound : Obligations.StraightLineLowerBound := by
  intro s hreach hline hcount hdone
  have hlag := (hreach.lag hline).writeback
  rw [writebackPos_of_done hdone (by omega), State.last] at hlag
  omega

/-- Settles O58: up to cycle 2 the write-back cursor is at 0 (`State.Filling`), which is not the last index. -/
theorem atLeastThreeCycles : Obligations.AtLeastThreeCycles := by
  intro s hreach hcount hdone
  have hfilling : s.Filling := hreach.induct resetWith_filling fun _ _ h hst => h.step hst
  have hwb := writebackPos_of_done hdone (by omega)
  by_contra hlt
  rw [hfilling.writeback (by omega), State.last] at hwb
  omega

/-- Settles O55: a reachable state has the invariant, one of whose clauses this is. -/
theorem invariantFaultIsUnreachable : Obligations.InvariantFaultIsUnreachable := fun _ h => h.inv.sound

end Sys2Proof.Machine
end

section
/-!
### The hazard-free run (70_reset_and_hazards.md R146, third row)

Without hazards the pipeline flows: after `n` cycles the cursors stand at `n`, `n - 1` and `n - 2`, each stopped at the
last index. So the run is given in closed form (`State.flowing`), and it ends when the write-back cursor arrives.
-/

namespace Sys2Proof.Machine

/-- The state `n` cycles after `s` in a run that never stalls. -/
def State.flowing (s : State) (n : Nat) : State :=
  { s with
    fetchPos := min n s.last, execPos := min (n - 1) s.last, writebackPos := min (n - 2) s.last, cycles := n }

@[simp] theorem State.flowing_count (s : State) (n : Nat) : (s.flowing n).count = s.count := rfl
@[simp] theorem State.flowing_last (s : State) (n : Nat) : (s.flowing n).last = s.last := rfl
@[simp] theorem State.flowing_fetchPos (s : State) (n : Nat) : (s.flowing n).fetchPos = min n s.last := rfl
@[simp] theorem State.flowing_execPos (s : State) (n : Nat) : (s.flowing n).execPos = min (n - 1) s.last := rfl

/-- What the run starts from: no stage is stalled, no fault is recorded and there are two instructions or more. -/
structure State.Ready (s : State) : Prop where
  fetchStatus : s.fetchStatus = .free
  executeStatus : s.executeStatus = .free
  fault : s.fault = none
  count : 2 ≤ s.count

theorem State.Ready.getElem?_min {s : State} (h : s.Ready) (k : Nat) : ∃ r, s.prog[min k s.last]? = some r := by
  have hcount := h.count
  unfold State.last
  unfold State.count at hcount ⊢
  exact ⟨_, List.getElem?_eq_getElem (by omega)⟩

/-- The write-back cursor reaches the last index in cycle `count + 1`. -/
theorem State.Ready.flowing_atEnd_iff {s : State} (h : s.Ready) (n : Nat) :
    (s.flowing n).atEnd = true ↔ s.count + 1 ≤ n := by
  have hcount := h.count
  have hlast : s.last = s.count - 1 := rfl
  have hwb : (s.flowing n).writebackPos = min (n - 2) s.last := rfl
  simp only [State.atEnd, flowing_count, flowing_last, hwb, Bool.or_eq_true, beq_iff_eq]
  omega

theorem State.Ready.flowing_move {s : State} (h : s.Ready) {n : Nat} (hn : n < s.last) :
    (s.flowing n).afterMove ((s.flowing n).fetchPos + 1) (s.flowing n).ctr = s.flowing (n + 1) := by
  simp only [afterMove, flowing, mk.injEq, h.fetchStatus, h.executeStatus, true_and, and_true]
  omega

theorem State.Ready.flowing_stay {s : State} (h : s.Ready) {n : Nat} (hn : s.last ≤ n) :
    (s.flowing n).afterStay .free = s.flowing (n + 1) := by
  simp only [afterStay, flowing, mk.injEq, h.fetchStatus, h.executeStatus, true_and, and_true]
  omega

/-- The scan never covers more than the record before the one to be fetched, whose needle that one does not
contain. -/
theorem hazardFree_scanPasses {s : State} (hfree : hazardFree s.prog) {n : Nat} {r : Record}
    (hr : s.prog[min n s.last]? = some r) : ScanPasses (s.flowing n) r := by
  obtain ⟨-, hrecord, hneedle⟩ := hfree
  intro k hk hlt
  rw [State.flowing_execPos] at hk
  rw [State.flowing_fetchPos] at hlt
  have hnext : min n s.last = k + 1 := by omega
  rw [hnext] at hr
  obtain ⟨hlen, -⟩ := List.getElem?_eq_some_iff.1 hr
  have hri : s.prog[k]? = some s.prog[k] := List.getElem?_eq_getElem (by omega)
  obtain ⟨-, hops⟩ := hrecord _ (List.mem_of_getElem? hri)
  obtain ⟨d, ops, hd⟩ := List.exists_cons_of_ne_nil hops
  have hneed : s.prog[k].operands[0]? = some d := by simp [hd]
  exact ⟨_, hri, .inr ⟨d, hneed, hneedle k _ r d hri hr hneed⟩⟩

/-- A cycle before the end moves every cursor on. -/
theorem State.Ready.flowing_step {s : State} (h : s.Ready) (hfree : hazardFree s.prog) {n : Nat}
    (hn : n ≤ s.count) : Machine.step (s.flowing n) = .next (s.flowing (n + 1)) := by
  obtain ⟨r, hr⟩ := h.getElem?_min n
  obtain ⟨re, hre⟩ := h.getElem?_min (n - 1)
  have ⟨hline, hrecord, _⟩ := hfree
  have hord := ordinary_of_straightLine hline (List.mem_of_getElem? hr)
  obtain ⟨hlat, -⟩ := hrecord re (List.mem_of_getElem? hre)
  have hreach : ReachesControl (s.flowing n) r.instr.record := by
    rw [record_instr_record]
    exact ⟨.inr ⟨re, hre, hlat⟩, hazardFree_scanPasses hfree hr⟩
  have hfreed : FetchFreed (s.flowing n) := .inl h.fetchStatus
  have hrun : (s.flowing n).atEnd = false := by
    rw [← Bool.not_eq_true, h.flowing_atEnd_iff]
    omega
  rw [step_of_fetch (s := s.flowing n) h.fault hrun hr]
  obtain hlt | hge := Nat.lt_or_ge n s.last
  · have hl : (s.flowing n).fetchPos ≠ (s.flowing n).last := by
      rw [flowing_fetchPos, flowing_last]
      omega
    rw [ordinaryInstructionsAdvance r.instr (s.flowing n) hord hreach hfreed hl, h.flowing_move hlt]
  · have hl : (s.flowing n).fetchPos = (s.flowing n).last := Nat.min_eq_right hge
    rw [lastIsNeverLeft r.instr (s.flowing n) hreach (hord.controlPasses _) hfreed hl, h.flowing_stay hge]

theorem State.Ready.flowing_run {s : State} (h : s.Ready) (hfree : hazardFree s.prog) {n : Nat}
    (hn : n ≤ s.count + 1) : Host.Core.run core n (s.flowing 0) = .next (s.flowing n) := by
  induction n with
  | zero => rfl
  | succ n ih => exact run_snoc n _ _ _ (ih (by omega)) (h.flowing_step hfree (by omega))

/-- The reset of a text that loads is the start of the run. -/
theorem resetWith_eq_flowing {src : Source} {t : Tables} (h : load src = .ok t) :
    State.resetWith src = (State.resetWith src).flowing 0 := by
  simp [resetWith_of_load h, State.flowing, State.reset]

/-- Settles O59: the run is `State.flowing`, whose write-back cursor is at the last index from cycle `count + 1` on. -/
theorem hazardFreeBaseline : Obligations.HazardFreeBaseline := by
  intro b t hload hfree hcount
  have hreset := resetWith_of_load hload
  have hprog : (State.resetWith (.text b)).prog = t.prog := by rw [hreset]
  have hstart := resetWith_eq_flowing hload
  have hready : (State.resetWith (.text b)).Ready := by
    rw [hreset]
    exact ⟨rfl, rfl, rfl, hcount⟩
  generalize State.resetWith (.text b) = s at *
  rw [← hprog] at hfree ⊢
  have hrun : ∀ n ≤ s.count + 1, Host.Core.run core n s = .next (s.flowing n) := fun n hn => by
    rw [← hready.flowing_run hfree hn, ← hstart]
  refine ⟨⟨_, hrun _ le_rfl, result_of_done ((done_iff _).2 ⟨hready.fault, ?_⟩)⟩, fun n hn =>
    ⟨_, hrun n (Nat.le_succ_of_le hn), ?_, rfl⟩⟩
  · exact (hready.flowing_atEnd_iff _).2 le_rfl
  · rw [← Bool.not_eq_true, done_iff, hready.flowing_atEnd_iff]
    rintro ⟨-, hend⟩
    exact absurd hend (Nat.not_le.2 (Nat.lt_succ_of_le hn))

end Sys2Proof.Machine
end
section
/-!
### The outcomes of a counted branch (48_instr_counted_branches.md R115 to R117)

Below its threshold a `bge` counts up, and not above its threshold a `ble` does; at the end of the count each goes back
to 0. Both counts start at 0, so the counter is the number of resolutions so far (`iterate_counts`).
-/

namespace Sys2Proof.Machine

/-- A map that adds 1 up to `n` counts its iterations up to `n`. -/
theorem iterate_counts {f : Int → Int} {n : Nat} (hf : ∀ k : Nat, k < n → f k = k + 1) {k : Nat}
    (hk : k ≤ n) : f^[k] 0 = k := by
  induction k with
  | zero => rfl
  | succ k ih =>
    rw [Function.iterate_succ_apply', ih (by omega), hf k hk]
    rfl

theorem br1Taken_iff (c t : Int) : br1Taken c t = true ↔ t ≤ c := decide_eq_true_iff

theorem br2Taken_iff (c t : Int) : br2Taken c t = true ↔ c ≤ t := decide_eq_true_iff

theorem br1Taken_eq_false_iff (c t : Int) : br1Taken c t = false ↔ c < t := by
  rw [← Bool.not_eq_true, br1Taken_iff, Int.not_le]

theorem br2Taken_eq_false_iff (c t : Int) : br2Taken c t = false ↔ t < c := by
  rw [← Bool.not_eq_true, br2Taken_iff, Int.not_le]

theorem br1Next_of_le {c t : Int} (h : t ≤ c) : br1Next c t = 0 := if_pos ((br1Taken_iff c t).2 h)

theorem br1Next_of_lt {c t : Int} (h : c < t) : br1Next c t = c + 1 :=
  if_neg (by rw [br1Taken_iff]; omega)

theorem br2Next_of_le {c t : Int} (h : c ≤ t) : br2Next c t = c + 1 := if_pos ((br2Taken_iff c t).2 h)

theorem br2Next_of_lt {c t : Int} (h : t < c) : br2Next c t = 0 :=
  if_neg (by rw [br2Taken_iff]; omega)

/-- The counter of a `bge` after `k` resolutions, up to its threshold. -/
theorem iterate_br1Next {T k : Nat} (h : k ≤ T) : (fun c => br1Next c T)^[k] 0 = k :=
  iterate_counts (fun _ hk => br1Next_of_lt (Int.ofNat_lt.2 hk)) h

/-- The counter of a `ble` after `k` resolutions, up to one above its threshold. -/
theorem iterate_br2Next {T k : Nat} (h : k ≤ T + 1) : (fun c => br2Next c T)^[k] 0 = k :=
  iterate_counts (fun _ hk => br2Next_of_le (Int.ofNat_le.2 (Nat.le_of_lt_succ hk))) h

/-- Settles O38: up to the threshold the counter is the number of resolutions (`iterate_br1Next`, `iterate_br2Next`);
there the outcome changes and the counter goes back to 0. -/
theorem branchOutcomesArePeriodic : Obligations.BranchOutcomesArePeriodic := by
  refine ⟨?bgeNotTaken, ?bgeTaken, ?bgeAlways, ?bleTaken, ?bleNotTaken, ?bleNever⟩
  case bgeNotTaken =>
    exact fun T k hk => ⟨iterate_br1Next hk.le, (br1Taken_eq_false_iff _ _).2 (Int.ofNat_lt.2 hk)⟩
  case bgeTaken =>
    refine fun T => ⟨iterate_br1Next le_rfl, (br1Taken_iff _ _).2 le_rfl, ?_⟩
    rw [Function.iterate_succ_apply', iterate_br1Next le_rfl]
    exact br1Next_of_le le_rfl
  case bgeAlways =>
    exact fun T hT => ⟨(br1Taken_iff _ _).2 hT, br1Next_of_le hT⟩
  case bleTaken =>
    exact fun T k hk => ⟨iterate_br2Next (Nat.le_succ_of_le hk), (br2Taken_iff _ _).2 (Int.ofNat_le.2 hk)⟩
  case bleNotTaken =>
    refine fun T => ⟨iterate_br2Next le_rfl, (br2Taken_eq_false_iff _ _).2 (Int.lt_succ T), ?_⟩
    rw [Function.iterate_succ_apply', iterate_br2Next le_rfl]
    exact br2Next_of_lt (Int.lt_succ T)
  case bleNever =>
    exact fun T hT => ⟨(br2Taken_eq_false_iff _ _).2 hT, br2Next_of_lt hT⟩

end Sys2Proof.Machine
end

section
/-!
### Where a fault is raised (60_exceptions.md R122 to R124, R128)

A fault of the scan ends the fetch unit (`cycleResult_short`), a threshold that cannot be read ends the control check,
and a performed transfer whose label cannot be read or is not defined faults when it is resolved. In each case only the
fault register is written.
-/

namespace Sys2Proof.Machine

/-! #### Faults of the control check -/

theorem exec_control_faults {i : Instr} {s : State} {c : Cause} (h : ReachesControl s i.record)
    (hc : controlOf i s.seen = .error c) : exec i s = .next (s.raise c) :=
  exec_eq_of_fault (by rw [cycleResult_control h, hc])

/-- A counted branch reads its threshold first (41_fetch_unit.md R87). -/
theorem controlOf_threshold_error {i : Instr} {s : State} {c : Cause} (hi : Counts i)
    (h : thresholdOf s.fetchPos i.record = .error c) : controlOf i s.seen = .error c := by
  have hcontrol : ∀ stalls, branchControl stalls i.record s.seen = .error c := fun stalls => by
    rw [branchControl, seen_fetchPos, h]
  obtain ⟨l, ops, rfl | rfl⟩ := hi
  · exact hcontrol br1Stalls
  · exact hcontrol br2Stalls

theorem thresholdOf_missing {p : Nat} {r : Record} (h : r.operands = []) :
    thresholdOf p r = .error (.shortRecord p) := by
  simp [thresholdOf, h, Config.shortRecord]

theorem thresholdOf_bad {p : Nat} {r : Record} {u : Text} (h : r.operands[0]? = some u)
    (hu : parseInt u = none) : thresholdOf p r = .error (.badThreshold p) := by
  simp [thresholdOf, h, hu]

/-! #### Faults of a performed transfer -/

/-- The transfer of `i` is performed once fetch is free and `fetch_pos` is not `last`: its control check passes, and a
counted branch is taken (41_fetch_unit.md R82 to R85). -/
def Transfers (i : Instr) (s : State) : Prop :=
  match i with
  | .jal _ _ => WritesBack s Config.mnJump
  | .bge _ ops => (∃ t c, BranchReads s ops t c ∧ t ≤ c) ∧ WritesBack s Config.mnBr1
  | .ble _ ops => (∃ t c, BranchReads s ops t c ∧ c ≤ t) ∧ WritesBack s Config.mnBr2
  | _ => False

theorem Transfers.controlPasses {i : Instr} {s : State} (h : Transfers i s) : ControlPasses i s := by
  cases i with
  | generic => exact h.elim
  | lw => exact h.elim
  | sw => exact h.elim
  | jal => exact h
  | bge => obtain ⟨⟨t, c, hb, -⟩, hw⟩ := h; exact ⟨t, c, hb, .inl hw⟩
  | ble => obtain ⟨⟨t, c, hb, -⟩, hw⟩ := h; exact ⟨t, c, hb, .inl hw⟩

/-- A transfer that resolves goes where its label says. -/
theorem Transfers.names {i : Instr} {s : State} {dst : Nat} {ctr : List (Nat × Int)} (h : Transfers i s)
    (hres : Resolves i s dst ctr) : Names s i.record.operands (targetAt i) dst := by
  cases i with
  | generic => exact h.elim
  | lw => exact h.elim
  | sw => exact h.elim
  | jal => exact hres.1
  | bge =>
    obtain ⟨⟨t, c, hb, hle⟩, -⟩ := h
    obtain ⟨t', c', hb', ⟨-, hn, -⟩ | ⟨hlt, -⟩⟩ := hres
    · exact hn
    · obtain ⟨rfl, rfl⟩ := hb.unique hb'
      omega
  | ble =>
    obtain ⟨⟨t, c, hb, hle⟩, -⟩ := h
    obtain ⟨t', c', hb', ⟨-, hn, -⟩ | ⟨hlt, -⟩⟩ := hres
    · exact hn
    · obtain ⟨rfl, rfl⟩ := hb.unique hb'
      omega

/-- A performed transfer whose label names no instruction raises what reading its label raises. -/
theorem Transfers.faults {i : Instr} {s : State} (h : Transfers i s) (hr : ReachesControl s i.record)
    (hf : FetchFreed s) (hl : s.fetchPos ≠ s.last)
    (hno : ∀ dst, ¬Names s i.record.operands (targetAt i) dst) :
    ∃ e, exec i s = .next (s.raise e) ∧
      ((i.record.operands[targetAt i]? = none ∧ e = .shortRecord s.fetchPos) ∨
        ∃ l, i.record.operands[targetAt i]? = some l ∧
          ((s.sym.lookup l = none ∧ e = .unresolvedLabel s.fetchPos) ∨
            ∃ dst, s.sym.lookup l = some dst ∧ ¬dst < s.count ∧ e = .invariant)) := by
  obtain ⟨dst, ctr, hres⟩ | ⟨e, he, -, hcause⟩ := resolveOf_cases (controlOf_passes h.controlPasses)
  · exact absurd (h.names hres) (hno dst)
  · exact ⟨e, exec_resolve_faults hr h.controlPasses hf hl he, hcause⟩

theorem Transfers.faults_missing {i : Instr} {s : State} (h : Transfers i s) (hr : ReachesControl s i.record)
    (hf : FetchFreed s) (hl : s.fetchPos ≠ s.last) (hnone : i.record.operands[targetAt i]? = none) :
    exec i s = .next (s.raise (.shortRecord s.fetchPos)) := by
  obtain ⟨e, he, ⟨-, rfl⟩ | ⟨l, hsome, -⟩⟩ := h.faults hr hf hl fun _ ⟨⟨_, hsome, _⟩, _⟩ => by
    simp [hnone] at hsome
  · exact he
  · simp [hnone] at hsome

theorem Transfers.faults_unresolved {i : Instr} {s : State} {label : Text} (h : Transfers i s)
    (hr : ReachesControl s i.record) (hf : FetchFreed s) (hl : s.fetchPos ≠ s.last)
    (hlabel : i.record.operands[targetAt i]? = some label) (hsym : s.sym.lookup label = none) :
    exec i s = .next (s.raise (.unresolvedLabel s.fetchPos)) := by
  have hundefined : ∀ {l}, i.record.operands[targetAt i]? = some l → s.sym.lookup l = none := fun hsome => by
    rwa [← Option.some.inj (hlabel.symm.trans hsome)]
  obtain ⟨e, he, ⟨hnone, -⟩ | ⟨l, hsome, ⟨-, rfl⟩ | ⟨dst, hdst, -⟩⟩⟩ :=
    h.faults hr hf hl fun _ ⟨⟨_, hsome, hdst⟩, _⟩ => by simp [hundefined hsome] at hdst
  · simp [hlabel] at hnone
  · exact he
  · simp [hundefined hsome] at hdst

/-! #### The statements -/

/-- Settles O39: each of the three is a performed transfer (`Transfers`) with an undefined label. -/
theorem unresolvedLabelFaults : Obligations.UnresolvedLabelFaults := by
  rintro i s ops k (⟨⟨l, rfl⟩, rfl, hw⟩ | ⟨⟨l, t, c, rfl, hb, hle⟩, rfl, hw⟩ | ⟨⟨l, t, c, rfl, hb, hle⟩, rfl, hw⟩)
    hr hf hl ⟨label, hlabel, hsym⟩
  · exact Transfers.faults_unresolved (i := .jal l ops) hw hr hf hl hlabel hsym
  · exact Transfers.faults_unresolved (i := .bge l ops) ⟨⟨t, c, hb, hle⟩, hw⟩ hr hf hl hlabel hsym
  · exact Transfers.faults_unresolved (i := .ble l ops) ⟨⟨t, c, hb, hle⟩, hw⟩ hr hf hl hlabel hsym

/-- Settles O40: the control check of a counted branch starts with its threshold, before any flag is read. -/
theorem badThresholdFaults : Obligations.BadThresholdFaults := by
  rintro i s l u ops (rfl | rfl) hr hu
  · exact exec_control_faults hr (controlOf_threshold_error ⟨l, u :: ops, .inl rfl⟩ (thresholdOf_bad rfl hu))
  · exact exec_control_faults hr (controlOf_threshold_error ⟨l, u :: ops, .inr rfl⟩ (thresholdOf_bad rfl hu))

/-- Settles O41: the scan ends at its first short record (`dataHazard_short`), and the fault of the scan is that of the
cycle. -/
theorem shortRecordScanFaults : Obligations.ShortRecordScanFaults := fun _ _ _ ha hk =>
  exec_eq_of_fault (cycleResult_short ha hk)

/-- Settles O42: a missing threshold faults in the control check, a missing label when the transfer is resolved. -/
theorem missingOperandFaults : Obligations.MissingOperandFaults := by
  rintro i s l hr (rfl | rfl | ⟨hf, hl, ⟨rfl, hw⟩ | ⟨⟨u, t, c, rfl, hb, hle⟩, hw⟩ | ⟨⟨u, t, c, rfl, hb, hle⟩, hw⟩⟩)
  · exact exec_control_faults hr (controlOf_threshold_error ⟨l, [], .inl rfl⟩ (thresholdOf_missing rfl))
  · exact exec_control_faults hr (controlOf_threshold_error ⟨l, [], .inr rfl⟩ (thresholdOf_missing rfl))
  · exact Transfers.faults_missing (i := .jal l []) hw hr hf hl rfl
  · exact Transfers.faults_missing (i := .bge l [u]) ⟨⟨t, c, hb, hle⟩, hw⟩ hr hf hl rfl
  · exact Transfers.faults_missing (i := .ble l [u]) ⟨⟨t, c, hb, hle⟩, hw⟩ hr hf hl rfl

/-- Settles O43: every cycle completes or raises (`exec_completes_or_raises`). -/
theorem faultEntryIsPrecise : Obligations.FaultEntryIsPrecise := by
  intro i s t h
  obtain ⟨u, hu, hcases⟩ := exec_completes_or_raises i s
  obtain rfl := next_inj (hu.symm.trans h)
  exact hcases.imp_left fun ⟨hcycles, _, hfault⟩ => ⟨hcycles, hfault⟩

/-- Settles O44: `step` reads the fault register first, `done` needs it clear, and `result` needs `done`. -/
theorem haltedEngineTakesNoCycle : Obligations.HaltedEngineTakesNoCycle := by
  intro s c h
  have hdone : s.done = false := by
    rw [← Bool.not_eq_true, done_iff, h]
    simp
  exact ⟨by simp [step, h], hdone, by simp [State.result, hdone]⟩

end Sys2Proof.Machine
end

section
/-!
### The state after reset (70_reset_and_hazards.md R140, R141)
-/

namespace Sys2Proof.Machine

/-- Settles O17: reset delivers the loaded tables and leaves every other field as `State.reset` has it. -/
theorem resetGivesTheStatedValues : Obligations.ResetGivesTheStatedValues := fun _ _ h => resetWith_of_load h

/-- Settles O53: `State.reset` is the reset of an unreadable source, and every reset has the invariant. -/
theorem resetMeetsInvariant : Obligations.ResetMeetsInvariant := by
  have h := everyLoadMeetsInvariant .unreadable
  rwa [resetWith_of_load_empty rfl] at h

end Sys2Proof.Machine
end
